-- ==== Sys2Proof/Word.lean ====
section
/-! DEFINITION. The word types of the engine and the parity convention.
`Frame` is `word(f)` of 00_scope R11; the other widths are those of 30_encoding R65 to R74. -/

namespace Sys2Proof

/-- A request or response word (30_encoding R63, R74). -/
abbrev Word := BitVec 32

/-- One character of the text, `CHAR_W` = 8 bits (30_encoding R69). -/
abbrev CharCode := BitVec 8

/-- The 8 data bits read as a binary numeral: data bit `j` is bit `7 - j` (30_encoding R65, R80). -/
abbrev DataBits := BitVec 8

/-- A frame as its word: frame bit `j` is bit `8 - j`, the parity bit is bit 0 (00_scope R11, 20_memory R42).
Every one of the 512 values is a frame (10_state R23). -/
abbrev Frame := BitVec 9

/-- `ParityConvention`: either `even` or `odd`, no third value and no default (10_state R25). -/
inductive Convention where
  | even
  | odd
  deriving DecidableEq, Repr

namespace Convention

/-- `c(conv)`: 0 for `even`, 1 for `odd` (00_scope R13, 30_encoding R66). -/
def bit : Convention → Bool
  | .even => false
  | .odd => true

/-- The convention a `conv` bit stands for (30_encoding R66). -/
def ofBit : Bool → Convention
  | false => .even
  | true => .odd

/-- The other convention (`conv'` of 43_generate R140, 45_correct R164). -/
def other : Convention → Convention
  | .even => .odd
  | .odd => .even

end Convention

end Sys2Proof
end

