-- ==== Sys2Proof/Config.lean ====
section
/-! DEFINITION. What is fixed for one machine: the parameters of 00_scope R8 and R9, and the free values
of the randomness source. -/

namespace Sys2Proof

namespace Config

/-- The largest number the 16-bit count field of a request or response word can hold (30_encoding R65, R74). -/
def fieldMax : Nat := 2 ^ 16 - 1

/-- `CH0`, the code of the digit `0` (00_scope R9, 30_encoding R61). -/
def ch0 : CharCode := 0x30#8

/-- `CH1`, the code of the digit `1` (00_scope R9, 30_encoding R61). -/
def ch1 : CharCode := 0x31#8

/-- `DEFAULT_FRAME_COUNT`: the caller's, never the engine's (43_generate R138). -/
def defaultFrameCount : Nat := 3

/-- The separator the caller's `render` puts between frames (20_memory R55). -/
def separator : CharCode := 0x20#8

/-- The default `WS`: tab, line feed, vertical tab, form feed, carriage return, space (30_encoding R61). -/
def defaultWs : List CharCode := [0x09#8, 0x0A#8, 0x0B#8, 0x0C#8, 0x0D#8, 0x20#8]

/-- FREE VALUE (log 4): what the randomness source answers to the draw numbered `k`, where no answer is known
in advance.  It has no body, so no proof can see it: a claim holds for every sequence of draws (60_exceptions R186,
93 U1).  The reader of a draw brings it into the draw's range. -/
opaque freeDraw : Nat → Nat

end Config

/-- The parameters of a machine that 10_state R36 makes fields of a configuration.  They are held in the state as data
that no step writes, so that every claim about every state is a claim for every `WS` and every `CNT_W` (92 D7, D8,
log 8, 9). -/
structure Config where
  /-- `WS`, the set of character codes that count as whitespace (00_scope R9). -/
  ws : List CharCode
  /-- `CNT_W`, the width of every count and frame index (00_scope R9): the spec's 16, or less, since the word layouts
  of 30_encoding R65, R73 and R74 have 16 bits for it (log 9). -/
  cntW : Fin 17 := 16
  deriving DecidableEq, Repr

namespace Config

/-- The machine with the spec's default `WS` and its `CNT_W` of 16. -/
def default : Config := { ws := defaultWs }

/-- `MAX_ITEMS` = 2^`CNT_W` - 1, the largest item count of one request (00_scope R9). -/
def maxItems (c : Config) : Nat := 2 ^ c.cntW.val - 1

/-- `WS` must not contain `CH0` or `CH1` (30_encoding R61). -/
abbrev WellFormed (c : Config) : Prop := ch0 ∉ c.ws ∧ ch1 ∉ c.ws

end Config

end Sys2Proof
end

