-- ==== Sys2Proof/Syntax.lean ====
section
/-! DEFINITION. The operations of the engine, one constructor per row of opcode_table.json (30_encoding R67). -/

namespace Sys2Proof

/-- The operand part of a request word.  Every request carries a `conv` bit; format N carries the count `n`, format D
the data bits `d` (30_encoding R65).  The payload items are not part of the word: they are `State.payload`. -/
inductive Instr where
  /-- `parse`: `n` is the number of characters; `conv` is ignored and echoed (R66, R90). -/
  | parse (conv : Convention) (n : Nat)
  /-- `computeParityBit` of the data bits `d` (R110). -/
  | par (conv : Convention) (d : DataBits)
  /-- `check` of `n` frames (R120). -/
  | check (conv : Convention) (n : Nat)
  /-- `generate` of `n` frames (R135). -/
  | gen (conv : Convention) (n : Nat)
  /-- `simulateSingleBitError` on `n` frames; `conv` is ignored and echoed (R66, R145). -/
  | inj (conv : Convention) (n : Nat)
  /-- `correct` of `n` frames (R160). -/
  | corr (conv : Convention) (n : Nat)
  deriving DecidableEq, Repr

end Sys2Proof
end

