-- ==== Sys2Proof/WellFormed.lean ====
section
/-! DEFINITION. Which operations a request word can express. -/

namespace Sys2Proof

/-- The count of a format N request fits the word's 16-bit field (30_encoding R65); format D has no
count.  A count of 0 is well formed for every operation: what it means is the operation's business (R77). -/
abbrev Instr.WellFormed (i : Instr) : Prop :=
  match i with
  | .parse _ n => n ≤ Config.fieldMax
  | .par _ _ => True
  | .check _ n => n ≤ Config.fieldMax
  | .gen _ n => n ≤ Config.fieldMax
  | .inj _ n => n ≤ Config.fieldMax
  | .corr _ n => n ≤ Config.fieldMax

end Sys2Proof
end

