-- ==== Sys2Proof/Decode.lean ====
section
/-! DEFINITION. Request words: decoding (30_encoding R65 to R68, R81) and encoding. -/

namespace Sys2Proof

/-- The `w`-bit word that holds the field `v` with its lowest bit at bit `lo` and is zero elsewhere. -/
def place {k : Nat} (w lo : Nat) (v : BitVec k) : BitVec w := v.setWidth w <<< lo

/-- Why a request word selects no operation (30_encoding R77 items 1 and 2). -/
inductive DecodeError where
  /-- `op` is `110` or `111`. -/
  | reservedOp
  /-- The `rsv` field of the selected format is not all zero. -/
  | reservedBits
  deriving DecidableEq, Repr

/-- Bits 31:29, `op`. -/
def opField (w : Word) : BitVec 3 := w.extractLsb' 29 3

/-- Bit 28, `conv`. -/
def convField (w : Word) : Convention := Convention.ofBit (w.getLsbD 28)

/-- Format N, bits 27:16, `rsv`. -/
def rsvFieldN (w : Word) : BitVec 12 := w.extractLsb' 16 12

/-- Format N, bits 15:0, `n`, unsigned (30_encoding R80). -/
def countField (w : Word) : Nat := (w.extractLsb' 0 16).toNat

/-- Format D, bits 27:8, `rsv`. -/
def rsvFieldD (w : Word) : BitVec 20 := w.extractLsb' 8 20

/-- Format D, bits 7:0, `d`. -/
def dataField (w : Word) : DataBits := w.extractLsb' 0 8

/-- Format N: a non-zero `rsv` is refused (30_encoding R68). -/
def decodeN (mk : Convention → Nat → Instr) (w : Word) : Except DecodeError Instr :=
  if rsvFieldN w = 0#12 then .ok (mk (convField w) (countField w)) else .error .reservedBits

/-- Format D: a non-zero `rsv` is refused (30_encoding R68). -/
def decodeD (mk : Convention → DataBits → Instr) (w : Word) : Except DecodeError Instr :=
  if rsvFieldD w = 0#20 then .ok (mk (convField w) (dataField w)) else .error .reservedBits

/-- Decoding of the request word, steps (1) and (2) of 30_encoding R81, with the `op` codes of R67.  Steps (3) and (4)
need the payload: `Machine.illegal`. -/
def decode (w : Word) : Except DecodeError Instr :=
  match (opField w).toNat with
  | 0 => decodeN .parse w
  | 1 => decodeD .par w
  | 2 => decodeN .check w
  | 3 => decodeN .gen w
  | 4 => decodeN .inj w
  | 5 => decodeN .corr w
  | _ => .error .reservedOp

/-- The `op` code of an operation (30_encoding R67). -/
def Instr.opcode (i : Instr) : BitVec 3 :=
  match i with
  | .parse _ _ => 0#3
  | .par _ _ => 1#3
  | .check _ _ => 2#3
  | .gen _ _ => 3#3
  | .inj _ _ => 4#3
  | .corr _ _ => 5#3

/-- The convention bit the request word carries. -/
def Instr.conv (i : Instr) : Convention :=
  match i with
  | .parse c _ => c
  | .par c _ => c
  | .check c _ => c
  | .gen c _ => c
  | .inj c _ => c
  | .corr c _ => c

/-- The operand field of the request word: `n` in bits 15:0 (format N) or `d` in bits 7:0 (format D).
DESIGN CHOICE (log 16): a count over 65535, which the spec says cannot be expressed (60_exceptions R188), is kept
modulo 2^16; only an ill-formed operation has one. -/
def Instr.operandField (i : Instr) : Word :=
  match i with
  | .parse _ n => place 32 0 (BitVec.ofNat 16 n)
  | .par _ d => place 32 0 d
  | .check _ n => place 32 0 (BitVec.ofNat 16 n)
  | .gen _ n => place 32 0 (BitVec.ofNat 16 n)
  | .inj _ n => place 32 0 (BitVec.ofNat 16 n)
  | .corr _ n => place 32 0 (BitVec.ofNat 16 n)

/-- The request word of an operation: `op` 31:29, `conv` 28, `rsv` zero, then `n` or `d` (30_encoding R65 to R68). -/
def encode (i : Instr) : Word := place 32 29 i.opcode ||| place 32 28 (BitVec.ofBool i.conv.bit) ||| i.operandField

/-- What the decoder reads from a table row's bits, numbered as opcode_table.json numbers them.  A request word is one
32-bit word and the engine has no byte order (20_memory R44), so bit `k` of `w` is bit `k` of the request word. -/
def decodeTableWord (nbits w : Nat) : Option Instr :=
  if nbits ≤ 32 then
    match decode (BitVec.ofNat 32 (w % 2 ^ nbits)) with
    | .ok i => some i
    | .error _ => none
  else none

end Sys2Proof
end

