-- ==== Sys2Proof/Machine/State.lean ====
section
/-! DEFINITION. The machine's data: payload items, requests, responses, outcomes, the state, and the state after
reset. -/

namespace Sys2Proof.Machine

/-- One payload element of a request or response (00_scope R16), always a whole word of its own width
(20_memory R44). -/
inductive Item where
  /-- `CHAR`: one character code (30_encoding R69). -/
  | char (c : CharCode)
  /-- `FRAME`: `word(f)` (30_encoding R70). -/
  | frame (f : Frame)
  /-- `CHK`: one `CheckResult` (30_encoding R71). -/
  | chk (w : BitVec 16)
  /-- `CFRAME`: a corrected frame and its `changed` bit (30_encoding R72). -/
  | cframe (w : BitVec 10)
  /-- `MUT`: one `BitMutation` (30_encoding R73). -/
  | mutation (w : BitVec 32)
  deriving DecidableEq, Repr

/-- A request: the word `REQ` and the payload the transport delivered with it; the delivered number of items `plen` is
the payload's length (30_encoding R63). -/
structure Request where
  word : Word
  payload : List Item
  deriving DecidableEq, Repr

/-- A response: the word `RSP` and its payload (30_encoding R74). -/
structure Response where
  word : Word
  payload : List Item
  deriving DecidableEq, Repr

/-- The status of a response; codes 5 to 15 do not exist (60_exceptions R170, 93 U9). -/
inductive Status where
  | ok
  | emptyInput
  | malformedFrame
  | emptyFrameSet
  | illegalRequest
  deriving DecidableEq, Repr

/-- Why the machine would stop.  There is no constructor: the spec has no condition that stops the engine.  Its errors
and refusals are responses (60_exceptions R176, R180), and a randomness source that does not answer is excluded by
60_exceptions R186 (log 14). -/
inductive Fault where
  deriving DecidableEq, Repr

/-- Why the model would decline an instruction. -/
inductive Refusal where
  /-- Raised by an arm of `exec` whose instruction has no meaning yet; no arm of this model raises it.  Safe: nothing
  can be proved of a run that is refused. -/
  | notModelled (mnemonic : String)
  deriving DecidableEq, Repr

/-- The state.  The engine itself keeps nothing between operations (10_state R20); the fields are the open parameter,
the payload of the request being served, and the data of the two agents the engine talks to (10_state R21, R36). -/
structure State where
  /-- The parameters `WS` and `CNT_W` (00_scope R9, 10_state R36); no step writes them. -/
  config : Config
  /-- The payload of the request being served, taken whole at its start (20_memory R54); empty between operations. -/
  payload : List Item
  /-- The caller's: the requests it has still to issue, next first (10_state R29, 20_memory R52). -/
  callerProgram : List Request
  /-- The caller's: the responses it has received, oldest first (10_state R22). -/
  received : List Response
  /-- The randomness source's: the answers to the coming draws that are known in advance, next first (log 4). -/
  draws : List Nat
  /-- The randomness source's: the number of draws made, which selects the free value `Config.freeDraw` once `draws` is
  used up (log 4). -/
  drawCount : Nat
  deriving DecidableEq, Repr

/-- After reset the engine is idle, no operation is in progress, and it accepts a request (70_reset R195).  `WS` and
`CNT_W` have the spec's values (00_scope R9).  That the
caller has issued and received nothing and that no draw has been made or is known in advance
is a DESIGN CHOICE (log 1, 2, 4). -/
def State.reset : State where
  config := Config.default
  payload := []
  callerProgram := []
  received := []
  draws := []
  drawCount := 0

end Sys2Proof.Machine
end

