-- ==== Sys2Proof/Machine/Operands.lean ====
section
/-! DEFINITION. Operand forms: bits of a frame, characters, payload items and the records they carry. -/

namespace Sys2Proof.Machine

/-! ### Bit sequences (00_scope R10, R11) -/

/-- The members of a word's bit sequence, index 0 (leftmost) first. -/
def bits {w : Nat} (b : BitVec w) : List Bool := (List.range w).map b.getMsbD

/-- The word whose bit sequence, read as a binary numeral, is the list (00_scope R11): each bit enters from the right. -/
def ofBits {w : Nat} (l : List Bool) : BitVec w := l.foldl BitVec.shiftConcat 0

/-- `ones(s)`: the number of members equal to 1 (00_scope R10). -/
def ones {w : Nat} (b : BitVec w) : Nat := (bits b).count true

/-- `f[j]`, bit index `j` of a frame: word bit `8 - j` (20_memory R42, 30_encoding R80). -/
def frameBit (f : Frame) (j : Nat) : Bool := f.getMsbD j

/-- `b[j]`, data bit `j`: bit `7 - j` of the data word (30_encoding R80). -/
def dataBit (b : DataBits) (j : Nat) : Bool := b.getMsbD j

/-- `data(f)` = `f[0..8)`, word bits 8:1 (00_scope R11, 30_encoding R70). -/
def dataOf (f : Frame) : DataBits := f.extractLsb' 1 8

/-- `par(f)` = `f[8]`, word bit 0 (00_scope R11, 30_encoding R70). -/
def parOf (f : Frame) : Bool := f.getLsbD 0

/-- `b ++ [p]`: the frame of 8 data bits and a parity bit (00_scope R11). -/
def frameOfParts (b : DataBits) (p : Bool) : Frame := place 9 1 b ||| place 9 0 (BitVec.ofBool p)

/-- `f[j := v]`: member `j` replaced, every other member unchanged (00_scope R10, 20_memory R51). -/
def frameSet (f : Frame) (j : Nat) (v : Bool) : Frame :=
  ofBits ((bits f).set j v)

/-! ### Characters (30_encoding R61, 40_parse R104) -/

/-- `isBin(ch)`: the character is `CH0` or `CH1`. -/
def isBin (ch : CharCode) : Bool := ch == Config.ch0 || ch == Config.ch1

/-- `isWs(ch)`: the character is in `WS`. -/
def isWs (cfg : Config) (ch : CharCode) : Bool := cfg.ws.contains ch

/-- `bitOf(ch)` = `ch[0]`, for a binary digit (40_parse R104). -/
def bitOf (ch : CharCode) : Bool := ch.getLsbD 0

/-- The digit that writes a bit (40_parse R92 read backwards, 20_memory R55). -/
def digitOf (b : Bool) : CharCode := if b then Config.ch1 else Config.ch0

/-! ### Payload items (30_encoding R64, R69 to R73) -/

/-- The characters of a payload of `CHAR` items, in order. -/
def charsOf (p : List Item) : List CharCode :=
  p.filterMap fun
    | .char c => some c
    | .frame _ | .chk _ | .cframe _ | .mutation _ => none

/-- The frames of a payload of `FRAME` items, in order. -/
def framesOf (p : List Item) : List Frame :=
  p.filterMap fun
    | .frame f => some f
    | .char _ | .chk _ | .cframe _ | .mutation _ => none

/-- The item is a `CHAR`. -/
def Item.isChar : Item → Bool
  | .char _ => true
  | .frame _ | .chk _ | .cframe _ | .mutation _ => false

/-- The item is a `FRAME`. -/
def Item.isFrame : Item → Bool
  | .frame _ => true
  | .char _ | .chk _ | .cframe _ | .mutation _ => false

/-- One step of an explanation (42_check R121). -/
inductive ExplainStep where
  | convention (c : Convention)
  | onesCount (k : Nat)
  | expected (e : Bool)
  | received (r : Bool)
  /-- `Verdict(0)` is "match", `Verdict(1)` is "mismatch". -/
  | verdict (x : Bool)
  deriving DecidableEq, Repr

/-- `CheckResult`, one per frame (10_state R26). -/
structure CheckResult where
  dataBits : DataBits
  receivedParityBit : Bool
  expectedParityBit : Bool
  mismatch : Bool
  explanation : List ExplainStep
  deriving DecidableEq, Repr

/-- `BitMutation`: the location an injection flipped (10_state R27). -/
structure BitMutation where
  frameIndex : Nat
  bitIndex : Nat
  deriving DecidableEq, Repr

/-- `explain(conv, k, e, r, x)`: the five steps in their fixed order (42_check R121). -/
def explain (conv : Convention) (k : Nat) (e r x : Bool) : List ExplainStep :=
  [.convention conv, .onesCount k, .expected e, .received r, .verdict x]

/-- The `CHK` item of a result under a convention (30_encoding R71): `dataBits` 15:8, `received` 7, `expected` 6,
`mismatch` 5, `conv` 4, `k` 3:0. -/
def chkWord (conv : Convention) (r : CheckResult) : BitVec 16 :=
  place 16 8 r.dataBits ||| place 16 7 (BitVec.ofBool r.receivedParityBit)
    ||| place 16 6 (BitVec.ofBool r.expectedParityBit) ||| place 16 5 (BitVec.ofBool r.mismatch)
    ||| place 16 4 (BitVec.ofBool conv.bit) ||| place 16 0 (BitVec.ofNat 4 (ones r.dataBits))

/-- The explanation as read from a `CHK` item: the fields `conv`, `k`, `expected`, `received`, `mismatch`, in that order
(42_check R121). -/
def explanationOfChk (w : BitVec 16) : List ExplainStep :=
  explain (Convention.ofBit (w.getLsbD 4)) (w.extractLsb' 0 4).toNat (w.getLsbD 6) (w.getLsbD 7) (w.getLsbD 5)

/-- The `CFRAME` item: `changed` 9, `frame` 8:0 (30_encoding R72). -/
def cframeWord (changed : Bool) (f : Frame) : BitVec 10 :=
  place 10 9 (BitVec.ofBool changed) ||| place 10 0 f

/-- The `MUT` item: `frameIndex` 31:16, zero 15:4, `bitIndex` 3:0 (30_encoding R73). -/
def mutWord (m : BitMutation) : BitVec 32 :=
  place 32 16 (BitVec.ofNat 16 m.frameIndex) ||| place 32 0 (BitVec.ofNat 4 m.bitIndex)

end Sys2Proof.Machine
end

