-- ==== Sys2Proof/Machine/Flags.lean ====
section
/-! DEFINITION. The parity rule and the result bits computed from it (41_parity, 42_check R120, 45_correct R160).
None of these bits outlives its operation (10_state R30). -/

namespace Sys2Proof.Machine

/-- `computeParityBit`: the single source of truth for parity (41_parity R110, R111, R113), by counting the 1-bits. -/
def computeParityBit (b : DataBits) (conv : Convention) : Bool :=
  let k := ones b
  match conv with
  | .even => if k % 2 = 0 then false else true
  | .odd => if k % 2 = 0 then true else false

/-- The reference datapath of 41_parity R117: a three-level tree of two-input gates and one gate for the convention.
It computes what `computeParityBit` says (00_scope R7). -/
def parityTree (b : DataBits) (conv : Convention) : Bool :=
  let l1_0 := dataBit b 0 ^^ dataBit b 1
  let l1_1 := dataBit b 2 ^^ dataBit b 3
  let l1_2 := dataBit b 4 ^^ dataBit b 5
  let l1_3 := dataBit b 6 ^^ dataBit b 7
  let l2_0 := l1_0 ^^ l1_1
  let l2_1 := l1_2 ^^ l1_3
  let l3 := l2_0 ^^ l2_1
  l3 ^^ conv.bit

/-- `mismatch` of a frame: expected ≠ received (42_check R120). -/
def mismatchBit (conv : Convention) (f : Frame) : Bool :=
  computeParityBit (dataOf f) conv != parOf f

/-- `changed` of a frame: the recomputed parity bit differs from the one it replaces (45_correct R160). -/
def changedBit (conv : Convention) (f : Frame) : Bool :=
  computeParityBit (dataOf f) conv != parOf f

end Sys2Proof.Machine
end

