-- ==== Sys2Proof/Machine/Ops.lean ====
section
/-! DEFINITION. The shared operations of the machine: response words, responding, raising an error, refusing, draws,
legality of a request, taking a request, reset. -/

namespace Sys2Proof.Machine

/-! ### Responses (30_encoding R74, 60_exceptions R170) -/

/-- The number of a status (60_exceptions R170). -/
def Status.code : Status → BitVec 4
  | .ok => 0#4
  | .emptyInput => 1#4
  | .malformedFrame => 2#4
  | .emptyFrameSet => 3#4
  | .illegalRequest => 4#4

/-- The word `RSP`: `op` 31:29, `conv` 28, `status` 27:24, zero 23:16, `m` 15:0 (30_encoding R74). -/
def rspWord (op : BitVec 3) (conv : Convention) (st : Status) (m : Nat) : Word :=
  place 32 29 op ||| place 32 28 (BitVec.ofBool conv.bit) ||| place 32 24 st.code
    ||| place 32 0 (BitVec.ofNat 16 m)

/-- The `op` field of a response. -/
def Response.op (r : Response) : BitVec 3 := r.word.extractLsb' 29 3

/-- The `conv` field of a response. -/
def Response.conv (r : Response) : Bool := r.word.getLsbD 28

/-- The `status` field of a response, as its code. -/
def Response.statusCode (r : Response) : Nat := (r.word.extractLsb' 24 4).toNat

/-- The `m` field of a response. -/
def Response.m (r : Response) : Nat := (r.word.extractLsb' 0 16).toNat

/-- The engine sends one response to the caller and forgets the request (30_encoding R62, 70_reset R202). -/
def State.send (s : State) (r : Response) : State :=
  { s with payload := [], received := s.received ++ [r] }

/-- End the operation `i` with a status, a count and the payload items (00_scope R13 `respond`). -/
def State.respond (s : State) (i : Instr) (st : Status) (m : Nat) (items : List Item) : State :=
  s.send { word := rspWord i.opcode i.conv st m, payload := items }

/-- `raise <Error>(info)` (60_exceptions R176), the one entry every error takes: one response whose status names the
error and whose count and payload carry the information; nothing is saved, no mode changes, no other result is
delivered.  There is no return from it: the engine is idle, as after `OK` (60_exceptions R180). -/
def State.raise (s : State) (i : Instr) (error : Status) (info : List Item) : State :=
  s.respond i error info.length info

/-- The refusal `IllegalRequest` (60_exceptions R174): no operation, no draw, `m` = 0, no payload, the request's bits
31:28 echoed. -/
def State.refuse (s : State) (op : BitVec 3) (conv : Convention) : State :=
  s.send { word := rspWord op conv .illegalRequest 0, payload := [] }

/-! ### Draws (60_exceptions R186) -/

/-- The value the randomness source answers to the draw `k` places ahead: the known answer where there is one, else a
free value (log 4). -/
def State.answer (s : State) (k : Nat) : Nat :=
  (s.draws[k]?).getD (Config.freeDraw (s.drawCount + k))

/-- `RandBit()` as the draw `k` places ahead: a bit. -/
def State.randBit (s : State) (k : Nat) : Bool := s.answer k % 2 == 1

/-- `RandIndex(n)` as the draw `k` places ahead: a number `r` with `0 <= r < n`, for `n >= 1`. -/
def State.randIndex (s : State) (k n : Nat) : Nat := s.answer k % n

/-- The next `k` draws have been made. -/
def State.consume (s : State) (k : Nat) : State :=
  { s with draws := s.draws.drop k, drawCount := s.drawCount + k }

/-! ### Legality of a request (30_encoding R77, R81) -/

/-- Why a request whose word selects an operation is illegal all the same. -/
inductive IllegalReason where
  /-- The count exceeds `MAX_ITEMS`: a bit of the field `n` above its `CNT_W` bits, which is reserved, is not zero
  (R68, R77 item 2; 60_exceptions R188; log 9).  It cannot happen where `CNT_W` is 16. -/
  | overLimit
  /-- `plen` differs from what R64 requires (R77 item 3). -/
  | wrongLength
  /-- `n` = 0 for `CHECK`, `CORR` or `GEN` (R77 item 4). -/
  | zeroCount
  /-- An item is not of the type R64 names for the operation (DEDUCED, log 7). -/
  | wrongType
  deriving DecidableEq, Repr

/-- The count of a format N request; format D has none (R65). -/
def countOf : Instr → Nat
  | .parse _ n => n
  | .par _ _ => 0
  | .check _ n => n
  | .gen _ n => n
  | .inj _ n => n
  | .corr _ n => n

/-- The number of payload items R64 requires. -/
def requiredItems : Instr → Nat
  | .parse _ n => n
  | .par _ _ => 0
  | .check _ n => n
  | .gen _ _ => 0
  | .inj _ n => n
  | .corr _ n => n

/-- The operation and count are those of R77 item 4. -/
def zeroCountForbidden : Instr → Bool
  | .parse _ _ => false
  | .par _ _ => false
  | .check _ n => n == 0
  | .gen _ n => n == 0
  | .inj _ _ => false
  | .corr _ n => n == 0

/-- Every item is of the type R64 names for the operation. -/
def itemsOfType : Instr → List Item → Bool
  | .parse _ _, p => p.all Item.isChar
  | .par _ _, _ => true
  | .check _ _, p => p.all Item.isFrame
  | .gen _ _, _ => true
  | .inj _ _, p => p.all Item.isFrame
  | .corr _ _, p => p.all Item.isFrame

/-- Steps (3) to (5) of decoding a request, in order (30_encoding R81, 60_exceptions R178), after what the machine's
`CNT_W` adds to step (2). -/
def illegal (cfg : Config) (i : Instr) (p : List Item) : Option IllegalReason :=
  if countOf i > cfg.maxItems then some .overLimit
  else if p.length ≠ requiredItems i then some .wrongLength
  else if zeroCountForbidden i then some .zeroCount
  else if !itemsOfType i p then some .wrongType
  else none

/-- Serve the operation `i`: an illegal request is refused, a legal one reaches its operation (60_exceptions R178). -/
def serve (i : Instr) (s : State) (run : State → State) : Host.Outcome State Fault Refusal :=
  match illegal s.config i s.payload with
  | none => .next (run s)
  | some _ => .next (s.refuse i.opcode i.conv)

/-! ### Taking a request, reset -/

/-- The caller issues a request and the engine takes its payload whole (20_memory R54). -/
def State.take (s : State) (r : Request) (rest : List Request) : State :=
  { s with callerProgram := rest, payload := r.payload }

/-- A request whose word selects no operation is refused, its bits 31:28 echoed (60_exceptions R174). -/
def State.refuseWord (s : State) (w : Word) : State := s.refuse (opField w) (convField w)

/-- Reset applied to a running machine (70_reset R195, R196): an operation in progress is abandoned without a
response; the caller's data and the randomness source are not affected (10_state R35). -/
def State.engineReset (s : State) : State := { s with payload := [] }

/-- The payload of the right type and length whose items are all zero: what `State.withFetchWord` delivers with a
request word (log 2). -/
def zeroPayload : Instr → List Item
  | .parse _ n => List.replicate n (.char 0#8)
  | .par _ _ => []
  | .check _ n => List.replicate n (.frame 0#9)
  | .gen _ _ => []
  | .inj _ n => List.replicate n (.frame 0#9)
  | .corr _ n => List.replicate n (.frame 0#9)

/-- The request with that word and a zero payload. -/
def zeroRequest (w : Word) : Request :=
  match decode w with
  | .ok i => { word := w, payload := zeroPayload i }
  | .error _ => { word := w, payload := [] }

end Sys2Proof.Machine
end

