-- ==== Sys2Proof/Machine/Check.lean ====
section
/-! DEFINITION. `CHECK`: the parity checker and mismatch detector (42_check). -/

namespace Sys2Proof.Machine

/-- `checkFrame(f, conv)` (42_check R120). -/
def checkFrame (conv : Convention) (f : Frame) : CheckResult :=
  let b := dataOf f
  let r := parOf f
  let k := ones b
  let e := computeParityBit b conv
  let x := mismatchBit conv f
  { dataBits := b, receivedParityBit := r, expectedParityBit := e, mismatch := x, explanation := explain conv k e r x }

/-- The per-frame results of `check(F, conv)`, in frame order (42_check R120, 20_memory R43). -/
def checkResults (conv : Convention) (fs : List Frame) : List CheckResult := fs.map (checkFrame conv)

/-- The aggregate: the number of mismatching frames; the check succeeded iff it is 0 (42_check R122). -/
def mismatchCount (rs : List CheckResult) : Nat := rs.countP (·.mismatch)

/-- The response of `CHECK` to a legal request (30_encoding R75). -/
def runCheck (conv : Convention) (i : Instr) (s : State) : State :=
  let rs := checkResults conv (framesOf s.payload)
  s.respond i .ok (mismatchCount rs) (rs.map fun r => .chk (chkWord conv r))

/-- `CHECK` (42_check R120). -/
def execCheck (conv : Convention) (n : Nat) (s : State) : Host.Outcome State Fault Refusal :=
  serve (.check conv n) s (runCheck conv (.check conv n))

/-- Success of a check as the caller reads it from the response: no mismatch in the whole set (42_check R122). -/
def Response.checkSucceeded (r : Response) : Bool := r.m == 0

end Sys2Proof.Machine
end

