-- ==== Sys2Proof/Machine/Correct.lean ====
section
/-! DEFINITION. `CORR`: recomputation of every parity bit (45_correct). -/

namespace Sys2Proof.Machine

/-- The corrected frame: the same data bits, the recomputed parity bit (45_correct R160, R162). -/
def correctFrame (conv : Convention) (f : Frame) : Frame :=
  let b := dataOf f
  frameOfParts b (computeParityBit b conv)

/-- The corrected `FrameSet`, in frame order (45_correct R160). -/
def correctFrames (conv : Convention) (fs : List Frame) : List Frame := fs.map (correctFrame conv)

/-- `CorrectionSet`: the indices of the frames whose parity bit was changed, in increasing order
(10_state R27, 45_correct R160). -/
def correctionSet (conv : Convention) (fs : List Frame) : List Nat :=
  (fs.zipIdx.filter fun p => changedBit conv p.1).map Prod.snd

/-- The `CFRAME` items: corrected frame `i` with its membership in the `CorrectionSet` (30_encoding R72). -/
def correctionItems (conv : Convention) (fs : List Frame) : List Item :=
  (correctFrames conv fs).zipIdx.map fun p => .cframe (cframeWord ((correctionSet conv fs).contains p.2) p.1)

/-- The response of `CORR` to a legal request: `m` is the size of the `CorrectionSet` (30_encoding R75). -/
def runCorr (conv : Convention) (i : Instr) (s : State) : State :=
  let fs := framesOf s.payload
  s.respond i .ok (correctionSet conv fs).length (correctionItems conv fs)

/-- `CORR` (45_correct R160). -/
def execCorr (conv : Convention) (n : Nat) (s : State) : Host.Outcome State Fault Refusal :=
  serve (.corr conv n) s (runCorr conv (.corr conv n))

end Sys2Proof.Machine
end

