-- ==== Sys2Proof/Machine/Generate.lean ====
section
/-! DEFINITION. `GEN`: random frames with correct parity (43_generate). -/

namespace Sys2Proof.Machine

/-- The data bits of frame `i`: data bit `j` is draw `8*i + j` (43_generate R135, R136). -/
def generatedData (draw : Nat → Bool) (i : Nat) : DataBits :=
  ofBits ((List.range 8).map fun j => draw (8 * i + j))

/-- Frame `i` of `generate`: its data bits and their parity bit (43_generate R135). -/
def generatedFrame (conv : Convention) (draw : Nat → Bool) (i : Nat) : Frame :=
  let b := generatedData draw i
  frameOfParts b (computeParityBit b conv)

/-- `generate(n, conv)` as a function of the draws (43_generate R135, R141). -/
def generate (conv : Convention) (n : Nat) (draw : Nat → Bool) : List Frame :=
  (List.range n).map (generatedFrame conv draw)

/-- The response of `GEN` to a legal request: exactly `8*n` draws (43_generate R136). -/
def runGen (conv : Convention) (n : Nat) (i : Instr) (s : State) : State :=
  (s.consume (8 * n)).respond i .ok n ((generate conv n s.randBit).map .frame)

/-- `GEN` (43_generate R135). -/
def execGen (conv : Convention) (n : Nat) (s : State) : Host.Outcome State Fault Refusal :=
  serve (.gen conv n) s (runGen conv n (.gen conv n))

end Sys2Proof.Machine
end

