-- ==== Sys2Proof/Machine/Inject.lean ====
section
/-! DEFINITION. `INJ`: the single-bit error injector (44_inject). -/

namespace Sys2Proof.Machine

/-- `f[j := ~f[j]]` (44_inject R145). -/
def flipBit (f : Frame) (j : Nat) : Frame := frameSet f j (!frameBit f j)

/-- `F[i := F[i][j := ~F[i][j]]]` (44_inject R145, R147). -/
def flipAt (fs : List Frame) (m : BitMutation) : List Frame :=
  fs.modify m.frameIndex fun f => flipBit f m.bitIndex

/-- The location of an injection into `n` frames: the frame index is drawn first with `RandIndex(n)`, then the bit
index with `RandIndex(9)`, the parity bit being eligible (44_inject R148, R149). -/
def drawnMutation (n : Nat) (s : State) : BitMutation :=
  { frameIndex := s.randIndex 0 n, bitIndex := s.randIndex 1 9 }

/-- The response of `INJ` to a legal request; no draw is made for an empty set (44_inject R145, R146). -/
def runInj (i : Instr) (s : State) : State :=
  let fs := framesOf s.payload
  if fs.length = 0 then s.raise i .emptyFrameSet []
  else
    let m := drawnMutation fs.length s
    (s.consume 2).respond i .ok fs.length ((flipAt fs m).map .frame ++ [.mutation (mutWord m)])

/-- `INJ` (44_inject R145).  The `conv` bit is only echoed (30_encoding R66). -/
def execInj (conv : Convention) (n : Nat) (s : State) : Host.Outcome State Fault Refusal :=
  serve (.inj conv n) s (runInj (.inj conv n))

end Sys2Proof.Machine
end

