-- ==== Sys2Proof/Machine/Parity.lean ====
section
/-! DEFINITION. `PAR`: the parity generator as an operation (41_parity). -/

namespace Sys2Proof.Machine

/-- `PAR` (41_parity R110): status `OK`, `m` = the parity bit, no payload. -/
def execPar (conv : Convention) (d : DataBits) (s : State) : Host.Outcome State Fault Refusal :=
  serve (.par conv d) s fun s => s.respond (.par conv d) .ok (computeParityBit d conv).toNat []

end Sys2Proof.Machine
end

