-- ==== Sys2Proof/Machine/Parse.lean ====
section
/-! DEFINITION. `PARSE`: the frame parser and bit-validator (40_parse). -/

namespace Sys2Proof.Machine

/-- A text character run: a token (40_parse R91). -/
abbrev Token := List CharCode

/-- The text goes on with a character that is not whitespace. -/
def startsToken (cfg : Config) : List CharCode → Bool
  | [] => false
  | c :: _ => !isWs cfg c

/-- Put a character in front of the first token. -/
def consFirst (c : CharCode) : List Token → List Token
  | [] => [[c]]
  | t :: ts => (c :: t) :: ts

/-- `tokens(T)`: the maximal runs of consecutive non-whitespace characters, in order (40_parse R91). -/
def tokens (cfg : Config) : List CharCode → List Token
  | [] => []
  | c :: cs =>
    if isWs cfg c then tokens cfg cs
    else if startsToken cfg cs then consFirst c (tokens cfg cs)
    else [c] :: tokens cfg cs

/-- The bit-validator: exactly 9 characters, each `0` or `1` (40_parse R92). -/
def validToken (t : Token) : Bool := t.length == 9 && t.all isBin

/-- `frameOf(t)` of a valid token: position for position (40_parse R92). -/
def frameOf (t : Token) : Frame := ofBits (t.map bitOf)

/-- How `parse` fails (40_parse R94, R95). -/
inductive ParseError where
  | emptyInput
  | malformedFrame (token : Token)
  deriving DecidableEq, Repr

/-- The loop of `parse` over the tokens: the leftmost invalid token ends it, and then no frame is returned
(40_parse R93, R95, R96). -/
def parseTokens : List Token → Except ParseError (List Frame)
  | [] => .ok []
  | t :: ts =>
    if validToken t then
      match parseTokens ts with
      | .ok fs => .ok (frameOf t :: fs)
      | .error e => .error e
    else .error (.malformedFrame t)

/-- `parse(T)` (40_parse R93). -/
def parse (cfg : Config) (text : List CharCode) : Except ParseError (List Frame) :=
  let toks := tokens cfg text
  if toks.length = 0 then .error .emptyInput else parseTokens toks

/-- The response to a parse of either kind: `OK(m, F)` with its count and frames, or the error raised
(30_encoding R75, 40_parse R93, R102). -/
def State.respondParse (s : State) (i : Instr) (result : Except ParseError (Nat × List Frame)) : State :=
  match result with
  | .ok (m, fs) => s.respond i .ok m (fs.map .frame)
  | .error .emptyInput => s.raise i .emptyInput []
  | .error (.malformedFrame t) => s.raise i .malformedFrame (t.map .char)

/-- The response of `PARSE` to a legal request: `OK(len(F), F)` (40_parse R93). -/
def runParse (i : Instr) (s : State) : State :=
  s.respondParse i ((parse s.config (charsOf s.payload)).map fun fs => (fs.length, fs))

/-- `PARSE` (40_parse R93).  The `conv` bit is only echoed (30_encoding R66). -/
def execParse (conv : Convention) (n : Nat) (s : State) : Host.Outcome State Fault Refusal :=
  serve (.parse conv n) s (runParse (.parse conv n))

end Sys2Proof.Machine
end

