-- ==== Sys2Proof/Machine/Dispatch.lean ====
section
/-! DEFINITION. One arm per operation. -/

namespace Sys2Proof.Machine

def exec (i : Instr) (s : State) : Host.Outcome State Fault Refusal :=
  match i with
  | .parse conv n => Sys2Proof.Machine.execParse conv n s
  | .par conv d => Sys2Proof.Machine.execPar conv d s
  | .check conv n => Sys2Proof.Machine.execCheck conv n s
  | .gen conv n => Sys2Proof.Machine.execGen conv n s
  | .inj conv n => Sys2Proof.Machine.execInj conv n s
  | .corr conv n => Sys2Proof.Machine.execCorr conv n s

end Sys2Proof.Machine
end

