-- ==== Sys2Proof/Machine/Step.lean ====
section
/-! DEFINITION. One step: one transaction (00_scope R6, 30_encoding R62). -/

namespace Sys2Proof.Machine

/-- The caller issues its next request and the engine answers it.  A request whose word selects no operation is refused
(30_encoding R77 items 1 and 2, R81); with no request the engine stays idle (70_reset R195, log 6). -/
def step (s : State) : Host.Outcome State Fault Refusal :=
  match s.callerProgram with
  | [] => .next s
  | r :: rest =>
    match decode r.word with
    | .ok i => exec i (s.take r rest)
    | .error _ => .next ((s.take r rest).refuseWord r.word)

/-- The state in which the caller's next request is the word `w` (bits numbered as opcode_table.json numbers them) with
the payload of zero items R64 asks for: the next step serves it.  The caller's later requests stay (log 2). -/
def State.withFetchWord (s : State) (nbits w : Nat) : State :=
  { s with callerProgram := zeroRequest (BitVec.ofNat 32 (w % 2 ^ nbits)) :: s.callerProgram }

end Sys2Proof.Machine
end

