-- ==== Sys2Proof/Machine/Caller.lean ====
section
/-! DEFINITION. What the caller does around the engine: the text form of a frame set (20_memory R55), issuing a request,
and the composition `g(parse(s))` (30_encoding R84). -/

namespace Sys2Proof.Machine

/-- A frame as its 9 characters in bit-index order (20_memory R55). -/
def renderFrame (f : Frame) : List CharCode := (bits f).map digitOf

/-- `render(F)`: consecutive frames separated by one 0x20, nothing before the first or after the last
(20_memory R55). -/
def render : List Frame → List CharCode
  | [] => []
  | [f] => renderFrame f
  | f :: fs => renderFrame f ++ Config.separator :: render fs

/-- The request for an operation with its payload. -/
def requestFor (i : Instr) (p : List Item) : Request := { word := encode i, payload := p }

/-- The caller puts a request before the others it has still to issue. -/
def State.issue (s : State) (r : Request) : State := { s with callerProgram := r :: s.callerProgram }

/-! ### The mnemonic notation (30_encoding R82, R83); where a form has no `conv` operand the bit is assembled as 0.
DESIGN CHOICE (log 16): a count over 65535, which no request can express (60_exceptions R188), wraps modulo 2^16 in the
request word, so the functions below stand for the notation only up to that count -/

/-- `PARSE "text"`. -/
def parseRequest (text : List CharCode) : Request := requestFor (.parse .even text.length) (text.map .char)

/-- `PAR conv, dddddddd`. -/
def parRequest (conv : Convention) (d : DataBits) : Request := requestFor (.par conv d) []

/-- `CHECK conv, f0 f1 ...`. -/
def checkRequest (conv : Convention) (fs : List Frame) : Request :=
  requestFor (.check conv fs.length) (fs.map .frame)

/-- `GEN conv, count`. -/
def genRequest (conv : Convention) (count : Nat) : Request := requestFor (.gen conv count) []

/-- `INJ f0 f1 ...`. -/
def injRequest (fs : List Frame) : Request := requestFor (.inj .even fs.length) (fs.map .frame)

/-- `CORR conv, f0 f1 ...`. -/
def corrRequest (conv : Convention) (fs : List Frame) : Request :=
  requestFor (.corr conv fs.length) (fs.map .frame)

/-- The frames of a successful `PARSE` response: its `FRAME` items. -/
def Response.framesIfOk (r : Response) : Option (List Frame) :=
  if r.statusCode = 0 then some (framesOf r.payload) else none

/-- The composition `g(parse(s), ...)` for `g` one of `checkRequest conv`, `corrRequest conv`, `injRequest`: first
`PARSE`; if its status is `OK` with frames `F`, then `g` on `F`; else the composition ends with that error and `g` is
not issued (30_encoding R84). -/
def composeWithParse (g : List Frame → Request) (text : List CharCode) (s : State) :
    Host.Outcome State Fault Refusal :=
  match step (s.issue (parseRequest text)) with
  | .next t =>
    match (t.received.getLast?).bind Response.framesIfOk with
    | some fs => step (t.issue (g fs))
    | none => .next t
  | .fault r => .fault r
  | .refused r => .refused r

end Sys2Proof.Machine
end

