-- ==== Sys2Proof/Machine/SerialParser.lean ====
section
/-! DEFINITION. The character-serial reference parser (40_parse R100 to R102): one way to build `parse` in hardware.
`execParse` does not use it; 00_scope R7 and 40_parse R103 say that it computes the same result.  Its registers are
transient: they exist within one `PARSE` and start at these values every time (10_state R33, R35). -/

namespace Sys2Proof.Machine

/-- The working registers of a machine whose `CNT_W` is `w` (40_parse R100). -/
structure ParserRegs (w : Nat) where
  pos : BitVec w
  start : BitVec w
  len : BitVec w
  acc : BitVec 9
  bad : Bool
  nfr : BitVec w
  buf : List Frame
  /-- `none`, or `malformed(s, l)`: the first invalid token by start position and length. -/
  err : Option (BitVec w × BitVec w)
  deriving DecidableEq, Repr

/-- The registers at the start of every `PARSE` (40_parse R100, 10_state R35). -/
def parserInit (w : Nat) : ParserRegs w :=
  { pos := 0#w, start := 0#w, len := 0#w, acc := 0#9, bad := false, nfr := 0#w, buf := [], err := none }

/-- `endToken()` (40_parse R101). -/
def parserEndToken {w : Nat} (r : ParserRegs w) : ParserRegs w :=
  let r :=
    if r.bad || r.len.toNat != 9 then { r with err := some (r.start, r.len) }
    else { r with buf := r.buf ++ [r.acc], nfr := r.nfr + 1#w }
  { r with len := 0#w, bad := false, acc := 0#9 }

/-- A character that is not whitespace joins the current token (40_parse R101). -/
def parserAddChar {w : Nat} (ch : CharCode) (r : ParserRegs w) : ParserRegs w :=
  let r := if r.len = 0#w then { r with start := r.pos } else r
  let r := if isBin ch then { r with acc := r.acc.shiftConcat (bitOf ch) } else { r with bad := true }
  { r with len := r.len + 1#w }

/-- `step(ch)` (40_parse R101). -/
def parserStep (cfg : Config) {w : Nat} (r : ParserRegs w) (ch : CharCode) : ParserRegs w :=
  let r :=
    if r.err ≠ none then r
    else if isWs cfg ch then (if r.len ≠ 0#w then parserEndToken r else r)
    else parserAddChar ch r
  { r with pos := r.pos + 1#w }

/-- The text may end inside a token (40_parse R102). -/
def parserFinish {w : Nat} (r : ParserRegs w) : ParserRegs w :=
  if r.err = none ∧ r.len ≠ 0#w then parserEndToken r else r

/-- The result the registers hold after the text: `malformed(s, l)` gives the slice of the text it names, no frame gives
`EmptyInput`, and else the result is `OK(nfr, buf)`, the count from its own register (40_parse R102). -/
def parserResult {w : Nat} (text : List CharCode) (r : ParserRegs w) : Except ParseError (Nat × List Frame) :=
  match r.err with
  | some (s, l) => .error (.malformedFrame ((text.drop s.toNat).take l.toNat))
  | none => if r.nfr = 0#w then .error .emptyInput else .ok (r.nfr.toNat, r.buf)

/-- The reference parser on a whole text (40_parse R100 to R102). -/
def serialParse (cfg : Config) (text : List CharCode) : Except ParseError (Nat × List Frame) :=
  parserResult text (parserFinish (text.foldl (parserStep cfg) (parserInit cfg.cntW.val)))

/-- The response the reference parser gives to a legal `PARSE` request: `m` is the register `nfr`, and each member of
`buf` is a `FRAME` item (40_parse R102). -/
def runSerialParse (i : Instr) (s : State) : State :=
  s.respondParse i (serialParse s.config (charsOf s.payload))

end Sys2Proof.Machine
end

