-- ==== Sys2Proof/Safety.lean ====
section
/-! DEFINITION. The terms claims are stated in, read off the spec's tables and not off the model's own encoders. -/

namespace Sys2Proof.Machine

/-! ### Responses -/

/-- The response has these fields (the table of 30_encoding R74, its reserved bits zero) and this payload. -/
abbrev Response.Carries (r : Response) (op : Nat) (conv : Bool) (status m : Nat) (items : List Item) : Prop :=
  (r.word.extractLsb' 29 3).toNat = op ∧ r.word.getLsbD 28 = conv ∧ (r.word.extractLsb' 24 4).toNat = status ∧
    r.word.extractLsb' 16 8 = 0#8 ∧ (r.word.extractLsb' 0 16).toNat = m ∧ r.payload = items

/-- From `s` to `t` the engine delivered the one response `r` and made `k` draws; everything else stands, but that the
request is over. -/
def Answered (s t : State) (r : Response) (k : Nat) : Prop :=
  t = { s with
    payload := [], received := s.received ++ [r], draws := s.draws.drop k, drawCount := s.drawCount + k }

/-- A `CHK` item has the fields of 30_encoding R71 for frame `f` under `conv`. -/
abbrev ChkDescribes (conv : Convention) (f : Frame) (w : BitVec 16) : Prop :=
  w.extractLsb' 8 8 = f.extractLsb' 1 8 ∧ w.getLsbD 7 = f.getLsbD 0 ∧
    w.getLsbD 6 = computeParityBit (f.extractLsb' 1 8) conv ∧
    w.getLsbD 5 = (computeParityBit (f.extractLsb' 1 8) conv != f.getLsbD 0) ∧ w.getLsbD 4 = conv.bit ∧
    (w.extractLsb' 0 4).toNat = ones (f.extractLsb' 1 8)

/-- The frame with the same data bits and the parity bit `conv` calls for. -/
abbrev IsCorrectionOf (conv : Convention) (f f' : Frame) : Prop :=
  f'.extractLsb' 1 8 = f.extractLsb' 1 8 ∧ f'.getLsbD 0 = computeParityBit (f.extractLsb' 1 8) conv

/-- The item is a `CHK`. -/
def Item.isChk : Item → Bool
  | .chk _ => true
  | .char _ | .frame _ | .cframe _ | .mutation _ => false

/-- The item is a `CHK` whose `mismatch` bit is 1. -/
def Item.isMismatch : Item → Bool
  | .chk w => w.getLsbD 5
  | .char _ | .frame _ | .cframe _ | .mutation _ => false

/-- The item is a `CFRAME`. -/
def Item.isCframe : Item → Bool
  | .cframe _ => true
  | .char _ | .frame _ | .chk _ | .mutation _ => false

/-- The item is a `CFRAME` whose `changed` bit is 1. -/
def Item.isChanged : Item → Bool
  | .cframe w => w.getLsbD 9
  | .char _ | .frame _ | .chk _ | .mutation _ => false

/-- The table of 30_encoding R75 with 60_exceptions R171: which count and payload each operation and status has, the
reserved bits zero, no row but these; no count or frame index exceeds the machine's `MAX_ITEMS` (20_memory R49). -/
def Response.WellFormed (cfg : Config) (r : Response) : Prop :=
  r.word.extractLsb' 16 8 = 0#8 ∧
    match r.statusCode, r.op.toNat with
    | 0, 0 => 1 ≤ r.m ∧ r.m ≤ cfg.maxItems ∧ r.payload.length = r.m ∧ r.payload.all Item.isFrame = true
    | 0, 1 => r.m ≤ 1 ∧ r.payload = []
    | 0, 2 => 1 ≤ r.payload.length ∧ r.payload.length ≤ cfg.maxItems ∧ r.payload.all Item.isChk = true ∧
        r.m = r.payload.countP Item.isMismatch
    | 0, 3 => 1 ≤ r.m ∧ r.m ≤ cfg.maxItems ∧ r.payload.length = r.m ∧ r.payload.all Item.isFrame = true
    | 0, 4 => 1 ≤ r.m ∧ r.m ≤ cfg.maxItems ∧
        ∃ (fs : List Frame) (w : BitVec 32), r.payload = fs.map .frame ++ [.mutation w] ∧
        fs.length = r.m ∧ (w.extractLsb' 16 16).toNat < r.m ∧ w.extractLsb' 4 12 = 0#12 ∧
        (w.extractLsb' 0 4).toNat ≤ 8
    | 0, 5 => 1 ≤ r.payload.length ∧ r.payload.length ≤ cfg.maxItems ∧ r.payload.all Item.isCframe = true ∧
        r.m = r.payload.countP Item.isChanged
    | 1, 0 => r.m = 0 ∧ r.payload = []
    | 2, 0 => 1 ≤ r.m ∧ r.m ≤ cfg.maxItems ∧ r.payload.length = r.m ∧ r.payload.all Item.isChar = true
    | 3, 4 => r.m = 0 ∧ r.payload = []
    | 4, _ => r.m = 0 ∧ r.payload = []
    | _, _ => False

/-! ### Requests -/

/-- The request is illegal by the four items of 30_encoding R77, read off the word's bits and the delivered number of
items. -/
abbrev Request.IllegalByR77 (r : Request) : Prop :=
  let op := (r.word.extractLsb' 29 3).toNat
  let n := (r.word.extractLsb' 0 16).toNat
  (op = 6 ∨ op = 7) ∨ (op = 1 ∧ r.word.extractLsb' 8 20 ≠ 0#20) ∨
    ((op = 0 ∨ op = 2 ∨ op = 3 ∨ op = 4 ∨ op = 5) ∧ r.word.extractLsb' 16 12 ≠ 0#12) ∨
    ((op = 1 ∨ op = 3) ∧ r.payload.length ≠ 0) ∨
    ((op = 0 ∨ op = 2 ∨ op = 4 ∨ op = 5) ∧ r.payload.length ≠ n) ∨
    ((op = 2 ∨ op = 3 ∨ op = 5) ∧ n = 0)

/-- The count of a format N request is one that `CNT_W` bits hold; on the spec's machine every count is
(00_scope R9, 60_exceptions R188, log 9). -/
abbrev Request.CountFits (cfg : Config) (r : Request) : Prop :=
  (r.word.extractLsb' 29 3).toNat ≠ 1 → (r.word.extractLsb' 0 16).toNat ≤ cfg.maxItems

/-- Every payload item is of the type 30_encoding R64 names for the operation. -/
abbrev Request.ItemsAsR64 (r : Request) : Prop :=
  let op := (r.word.extractLsb' 29 3).toNat
  (op = 0 → r.payload.all Item.isChar = true) ∧
    (op = 2 ∨ op = 4 ∨ op = 5 → r.payload.all Item.isFrame = true)

/-! ### Texts -/

/-- `T[a..b)` (00_scope R10). -/
def slice {α : Type} (l : List α) (a b : Nat) : List α := (l.drop a).take (b - a)

/-- The slice `T[a..b)` is a token: a maximal run of consecutive non-whitespace characters (40_parse R91). -/
def IsToken (cfg : Config) (text : List CharCode) (a b : Nat) : Prop :=
  a < b ∧ b ≤ text.length ∧ (∀ p c, a ≤ p → p < b → text[p]? = some c → c ∉ cfg.ws) ∧
    (a = 0 ∨ ∃ c, text[a - 1]? = some c ∧ c ∈ cfg.ws) ∧ (b = text.length ∨ ∃ c, text[b]? = some c ∧ c ∈ cfg.ws)

/-- The bit-validator's condition (40_parse R92). -/
abbrev IsValidToken (t : Token) : Prop := t.length = 9 ∧ ∀ c ∈ t, c = Config.ch0 ∨ c = Config.ch1

/-- `frameOf` (40_parse R92): bit `p` is 1 exactly where the token's character `p` is `CH1`. -/
def IsFrameOf (t : Token) (f : Frame) : Prop :=
  ∀ p, p < 9 → (f.getMsbD p = true ↔ t[p]? = some Config.ch1)

/-! ### Runs -/

/-- No request has been refused so far.  A claim about a run in which a request was refused says nothing about the
document's engine (60_exceptions R174), so such claims take this as a premise. -/
abbrev State.NoRefusal (s : State) : Prop := ∀ r ∈ s.received, r.statusCode ≠ 4

/-- What holds between operations: `WS` holds no digit (30_encoding R61), no request is in progress (10_state R20,
R33), and every response delivered is one of the table's (30_encoding R75). -/
def State.Inv (s : State) : Prop :=
  s.config.WellFormed ∧ s.payload = [] ∧ ∀ r ∈ s.received, r.WellFormed s.config

/-- The number of draws an operation makes: `8*n` for a legal `GEN`, two for a legal `INJ` of at least one frame, none
on a refused or failing request (60_exceptions R186). -/
def drawsMade (cfg : Config) (i : Instr) (p : List Item) : Nat :=
  match i with
  | .parse _ _ => 0
  | .par _ _ => 0
  | .check _ _ => 0
  | .gen _ n => if p = [] ∧ n ≤ cfg.maxItems then 8 * n else 0
  | .inj _ n => if n ≠ 0 ∧ n ≤ cfg.maxItems ∧ p.length = n ∧ p.all Item.isFrame = true then 2 else 0
  | .corr _ _ => 0

/-- The draws an operation on this payload makes, as the values in their ranges, in order: the bits of `GEN`, the frame
index and the bit index of `INJ` (60_exceptions R186). -/
def drawn (i : Instr) (p : List Item) (s : State) : List Nat :=
  match i with
  | .parse _ _ => []
  | .par _ _ => []
  | .check _ _ => []
  | .gen _ _ => (List.range (drawsMade s.config i p)).map fun k => (s.randBit k).toNat
  | .inj _ n => if drawsMade s.config i p = 0 then [] else [s.randIndex 0 n, s.randIndex 1 9]
  | .corr _ _ => []

/-- The draws made during a request: those of the operation its word decodes to, none for a word that selects none
(10_state R20, 60_exceptions R186). -/
def Request.drawn (r : Request) (s : State) : List Nat :=
  match decode r.word with
  | .ok i => Machine.drawn i r.payload s
  | .error _ => []

end Sys2Proof.Machine
end

