-- ==== Sys2Proof/Certificates/Slice0/Obligations.lean ====
section
/-! DEFINITION. The statements for the provers.  Each docstring names the rule of spec/ it formalises. -/

open Sys2Proof Sys2Proof.Machine

/-! ### Request words -/

/-- 30_encoding R65 to R67: no operand of a well-formed operation is lost between encoding and decoding. -/
def Obligations.DecodeAfterEncodeIsIdentity : Prop :=
  ∀ i : Instr, i.WellFormed → decode (encode i) = .ok i

/-- 30_encoding R65 to R68: a word that decodes has one meaning, and that operation encodes to this very word. -/
def Obligations.EncodeAfterDecodeIsIdentity : Prop :=
  ∀ (w : Word) (i : Instr), decode w = .ok i → i.WellFormed ∧ encode i = w

/-- 30_encoding R67, the table's masks and matches: a word selects the row it matches. -/
def Obligations.WordSelectsTableRow : Prop :=
  ∀ w : Word,
    ((∃ c n, decode w = .ok (.parse c n)) ↔ w &&& 0xEFFF0000#32 = 0x00000000#32) ∧
    ((∃ c d, decode w = .ok (.par c d)) ↔ w &&& 0xEFFFFF00#32 = 0x20000000#32) ∧
    ((∃ c n, decode w = .ok (.check c n)) ↔ w &&& 0xEFFF0000#32 = 0x40000000#32) ∧
    ((∃ c n, decode w = .ok (.gen c n)) ↔ w &&& 0xEFFF0000#32 = 0x60000000#32) ∧
    ((∃ c n, decode w = .ok (.inj c n)) ↔ w &&& 0xEFFF0000#32 = 0x80000000#32) ∧
    ((∃ c n, decode w = .ok (.corr c n)) ↔ w &&& 0xEFFF0000#32 = 0xA0000000#32)

/-- 30_encoding R67, R77 with 60_exceptions R174: a word that matches no row is answered with `IllegalRequest`, whatever
its payload.  That this refusal is a next state is the model's choice (log 3). -/
def Obligations.UnmatchedWordRefused : Prop :=
  ∀ (s : State) (r : Request) (rest : List Request), s.callerProgram = r :: rest →
    r.word &&& 0xEFFF0000#32 ∉ [0x00000000#32, 0x40000000#32, 0x60000000#32, 0x80000000#32, 0xA0000000#32] →
    r.word &&& 0xEFFFFF00#32 ≠ 0x20000000#32 →
    ∃ (t : State) (a : Response), step s = .next t ∧ Answered { s with callerProgram := rest } t a 0 ∧
      a.Carries (r.word.extractLsb' 29 3).toNat (r.word.getLsbD 28) 4 0 []

/-- 30_encoding R77 items 1 and 2, R81 steps (1) and (2): each rejected word is rejected under its own name. -/
def Obligations.ReservedWordsRejectedByName : Prop :=
  ∀ w : Word,
    (decode w = .error .reservedOp ↔ (w.extractLsb' 29 3).toNat = 6 ∨ (w.extractLsb' 29 3).toNat = 7) ∧
    (decode w = .error .reservedBits ↔
      ((w.extractLsb' 29 3).toNat = 1 ∧ w.extractLsb' 8 20 ≠ 0#20) ∨
      ((w.extractLsb' 29 3).toNat ≠ 1 ∧ (w.extractLsb' 29 3).toNat ≤ 5 ∧ w.extractLsb' 16 12 ≠ 0#12))

/-- 30_encoding R85 and 95_test_vectors 2.8: worked request words, one of each operation. -/
def Obligations.WorkedRequestWordsDecode : Prop :=
  decode 0x0000001D#32 = .ok (.parse .even 29) ∧ decode 0x300000B2#32 = .ok (.par .odd 0xB2#8) ∧
  decode 0x50000003#32 = .ok (.check .odd 3) ∧ decode 0x70000003#32 = .ok (.gen .odd 3) ∧
  decode 0x90000001#32 = .ok (.inj .odd 1) ∧ decode 0xA0000003#32 = .ok (.corr .even 3) ∧
  decode 0xC0000000#32 = .error .reservedOp ∧ decode 0xE0000005#32 = .error .reservedOp ∧
  decode 0x40010001#32 = .error .reservedBits ∧ decode 0x200001B2#32 = .error .reservedBits

/-! ### Steps -/

/-- A step takes the caller's next request, its payload whole (20_memory R54), and runs the operation its word decodes
to (30_encoding R81).  Holding the caller's requests in the state is the model's choice (log 1). -/
def Obligations.StepRunsDecodedOperation : Prop :=
  ∀ (s : State) (r : Request) (rest : List Request) (i : Instr), s.callerProgram = r :: rest → decode r.word = .ok i →
    step s = exec i { s with callerProgram := rest, payload := r.payload }

/-- With no request the engine stays as it is (the model's choice, log 6; 70_reset R195: the engine is idle). -/
def Obligations.IdleStepChangesNothing : Prop :=
  ∀ s : State, s.callerProgram = [] → step s = .next s

/-- Every step answers a next state.  70_reset R206 promises the step of a legal request whose draws are answered, and
60_exceptions R186 that the source always answers (log 14).  The rest is the model's choice: an illegal request is
answered in a next state (60_exceptions R174, log 3; for an item type or a count, log 7 and 9), and with no request the
step is idle (log 6). -/
def Obligations.EveryStepAnswers : Prop :=
  ∀ s : State, ∃ t, step s = .next t

/-- 60_exceptions R174: a request that is illegal by the items of 30_encoding R77 is answered with `IllegalRequest`,
`m` = 0, no payload, its bits 31:28 echoed; no draw is made and nothing else happens.  That this refusal is a next state
is the model's choice (log 3). -/
def Obligations.IllegalRequestRefused : Prop :=
  ∀ (s : State) (r : Request) (rest : List Request), s.callerProgram = r :: rest → r.IllegalByR77 →
    ∃ (t : State) (a : Response), step s = .next t ∧ Answered { s with callerProgram := rest } t a 0 ∧
      a.Carries (r.word.extractLsb' 29 3).toNat (r.word.getLsbD 28) 4 0 []

/-- 30_encoding R77, R81: a request that R77 does not call illegal, with items of the types R64 names and a count that
`CNT_W` bits hold, reaches its operation: its answer is not `IllegalRequest`. -/
def Obligations.LegalRequestReachesOperation : Prop :=
  ∀ (s : State) (r : Request) (rest : List Request), s.callerProgram = r :: rest → ¬ r.IllegalByR77 → r.ItemsAsR64 →
    r.CountFits s.config →
    ∃ (t : State) (a : Response), step s = .next t ∧ t.received = s.received ++ [a] ∧
      (a.word.extractLsb' 24 4).toNat ≠ 4

/-- 00_scope R9, 10_state R36, 60_exceptions R188: where `CNT_W` is the spec's 16 every request's count fits; on a
machine with a smaller `CNT_W` a request with a larger count is refused (the model's choice, log 9; and log 3). -/
def Obligations.CountOverLimitRefused : Prop :=
  (∀ (cfg : Config) (r : Request), cfg.cntW = 16 → r.CountFits cfg) ∧
  ∀ (s : State) (r : Request) (rest : List Request), s.callerProgram = r :: rest → ¬ r.CountFits s.config →
    ∃ (t : State) (a : Response), step s = .next t ∧ Answered { s with callerProgram := rest } t a 0 ∧
      a.Carries (r.word.extractLsb' 29 3).toNat (r.word.getLsbD 28) 4 0 []

/-- A payload with an item of a type R64 does not name is answered as 60_exceptions R174 answers an illegal request.  That
such a payload is illegal is the model's reading of 30_encoding R81's "total" (log 7), and that the refusal is a next
state is the model's choice (log 3). -/
def Obligations.WrongItemTypeRefused : Prop :=
  ∀ (s : State) (r : Request) (rest : List Request), s.callerProgram = r :: rest → ¬ r.ItemsAsR64 →
    ∃ (t : State) (a : Response), step s = .next t ∧ Answered { s with callerProgram := rest } t a 0 ∧
      a.Carries (r.word.extractLsb' 29 3).toNat (r.word.getLsbD 28) 4 0 []

/-- Every operation, on every state, answers a next state with exactly one response (30_encoding R62, R74), which echoes
its `op` and `conv` bits (R66, 60_exceptions R174), makes exactly the draws R186 names, and leaves everything else as it
was (20_memory R48, 60_exceptions R176).  A refused request performs no operation (R174): its one response is the
refusal, which is a next state by the model's choice (log 3), and it makes no draw; refused are also a payload item of
another type (log 7), a count over the machine's limit (log 9) and an ill-formed count (log 16). -/
def Obligations.OneResponseAndNothingElse : Prop :=
  ∀ (i : Instr) (s : State),
    ∃ (t : State) (a : Response), exec i s = .next t ∧ Answered s t a (drawsMade s.config i s.payload) ∧
      a.word.extractLsb' 29 3 = i.opcode ∧ a.word.getLsbD 28 = i.conv.bit

/-- 60_exceptions R171: which operation can end with which status.  That `IllegalRequest` is a response of a next state is
the model's choice (log 3); it also answers the cases of log 7, 9 and 16. -/
def Obligations.StatusesOfEachOperation : Prop :=
  ∀ (i : Instr) (s t : State) (a : Response), exec i s = .next t → t.received = s.received ++ [a] →
    (a.word.extractLsb' 24 4).toNat ∈ (match i with
      | .parse _ _ => [0, 1, 2, 4]
      | .par _ _ => [0, 4]
      | .check _ _ => [0, 4]
      | .gen _ _ => [0, 4]
      | .inj _ _ => [0, 3, 4]
      | .corr _ _ => [0, 4])

/-- 10_state R20: the response to a request is a function of that request and of the draws made during it, whatever else
the two states hold: no draw but those counts, so a request that makes none has one response in every state of one
machine (the parameters `WS` and `CNT_W` being equal).  That a refused request too is answered in a next state is the
model's choice (log 3). -/
def Obligations.ResponseDependsOnRequestAndDraws : Prop :=
  ∀ (s t : State) (r : Request) (rest rest' : List Request), s.config = t.config →
    s.callerProgram = r :: rest → t.callerProgram = r :: rest' → r.drawn s = r.drawn t →
    ∃ (s' t' : State) (a : Response), step s = .next s' ∧ step t = .next t' ∧
      s'.received = s.received ++ [a] ∧ t'.received = t.received ++ [a]

/-- 30_encoding R66: `PARSE` and `INJ` ignore the `conv` bit and echo it, on a refused request too (60_exceptions R174,
log 3). -/
def Obligations.ConventionIgnoredByParseAndInject : Prop :=
  ∀ (c c' : Convention) (n : Nat) (s : State) (op : Convention → Nat → Instr), op = .parse ∨ op = .inj →
    ∃ (t t' : State) (a a' : Response) (k : Nat), exec (op c n) s = .next t ∧
      exec (op c' n) s = .next t' ∧ Answered s t a k ∧ Answered s t' a' k ∧
      a.payload = a'.payload ∧ a.word.extractLsb' 0 28 = a'.word.extractLsb' 0 28 ∧
      a.word.getLsbD 28 = c.bit ∧ a'.word.getLsbD 28 = c'.bit

/-! ### Invariant and reset -/

/-- 30_encoding R75 with 60_exceptions R171, 10_state R20, 30_encoding R61: every step from every state keeps the
invariant that every response delivered is a row of the response table, that no request is left in progress, and that
`WS` holds no digit. -/
def Obligations.StepKeepsInvariant : Prop :=
  ∀ s t : State, s.Inv → step s = .next t → t.Inv

/-- 70_reset R195, 30_encoding R61: after reset no operation is in progress, `WS` is the spec's default and
`MAX_ITEMS` is its 65535 (00_scope R9); that nothing has been issued, received or drawn is the model's
choice (log 1, 2, 4). -/
def Obligations.ResetStateIsIdle : Prop :=
  State.reset.payload = [] ∧ State.reset.config.ws = [0x09#8, 0x0A#8, 0x0B#8, 0x0C#8, 0x0D#8, 0x20#8] ∧
    State.reset.config.maxItems = 65535 ∧
    State.reset.callerProgram = [] ∧ State.reset.received = [] ∧ State.reset.draws = []

/-- The invariant holds after reset. -/
def Obligations.InvariantHoldsAtReset : Prop := State.reset.Inv

/-- 70_reset R195, R196: reset between operations is the identity, whatever the caller and the source hold; a reset that
found a request's payload leaves no trace in any later response. -/
def Obligations.ResetBetweenOperationsIsIdentity : Prop :=
  (∀ s : State, s.Inv → s.engineReset = s) ∧
  (∀ (s : State) (r : Request) (rest : List Request), s.callerProgram = r :: rest → step s.engineReset = step s)

/-- 70_reset R195: an operation issued after reset gives the same response as at any other time with the same draws,
whatever the source answers to draws the operation does not make.  It is said of every request: that a refused one is
answered in a next state, with 60_exceptions R174's response, is the model's choice (log 3). -/
def Obligations.ResponseAfterResetIsTheSame : Prop :=
  ∀ (s : State) (r : Request) (rest : List Request) (answers : List Nat) (count : Nat),
    let fresh : State := { State.reset with callerProgram := [r], draws := answers, drawCount := count }
    s.callerProgram = r :: rest → s.config = State.reset.config → r.drawn s = r.drawn fresh →
    ∃ (s' t' : State) (a : Response), step s = .next s' ∧ step fresh = .next t' ∧
      s'.received = s.received ++ [a] ∧ t'.received = [a]

/-! ### PAR -/

/-- 41_parity R110: `PAR` completes with status `OK` and the parity bit of the 8 data bits, by counting. -/
def Obligations.ParReturnsParityBit : Prop :=
  ∀ (conv : Convention) (d : DataBits) (s : State), s.payload = [] →
    ∃ (t : State) (a : Response), exec (.par conv d) s = .next t ∧ Answered s t a 0 ∧
      a.Carries 1 conv.bit 0
        (let k := (List.range 8).countP fun j => d.getLsbD (7 - j)
         if conv = .even then (if k % 2 = 0 then 0 else 1) else (if k % 2 = 0 then 1 else 0)) []

/-- 41_parity R112, R117: the counting rule, the exclusive-or form and the gate tree are one function. -/
def Obligations.ParityEqualsXorFormAndTree : Prop :=
  ∀ (b : DataBits) (conv : Convention),
    computeParityBit b conv = (b.getMsbD 0 ^^ b.getMsbD 1 ^^ b.getMsbD 2 ^^ b.getMsbD 3 ^^ b.getMsbD 4 ^^ b.getMsbD 5 ^^
      b.getMsbD 6 ^^ b.getMsbD 7 ^^ conv.bit) ∧
    parityTree b conv = computeParityBit b conv

/-- 41_parity R111: the result under each convention, and with it the number of ones is even under `even` and odd under
`odd`. -/
def Obligations.ParityMakesTotalMatchConvention : Prop :=
  ∀ b : DataBits,
    (computeParityBit b .even = false ↔ ones b % 2 = 0) ∧ (computeParityBit b .odd = true ↔ ones b % 2 = 0) ∧
    (ones b + (computeParityBit b .even).toNat) % 2 = 0 ∧ (ones b + (computeParityBit b .odd).toNat) % 2 = 1

/-- 41_parity R114: the two conventions always disagree on the same data. -/
def Obligations.ConventionsAlwaysDisagree : Prop :=
  ∀ d : DataBits, (computeParityBit d .even ^^ computeParityBit d .odd) = true

/-! ### PARSE -/

/-- 40_parse R91: the tokens of a text are its maximal runs of non-whitespace characters, in increasing order of their
first position. -/
def Obligations.TokensAreMaximalRuns : Prop :=
  ∀ (cfg : Config) (text : List CharCode), ∃ spans : List (Nat × Nat),
    spans.Pairwise (fun x y => x.1 < y.1) ∧ (∀ a b, (a, b) ∈ spans ↔ IsToken cfg text a b) ∧
    tokens cfg text = spans.map fun x => slice text x.1 x.2

/-- 40_parse R93, R92: a text with at least one token, all valid, gives `OK` and one frame per token, in order. -/
def Obligations.ParseOfValidTextReturnsFrames : Prop :=
  ∀ (conv : Convention) (text : List CharCode) (s : State), s.payload = text.map .char →
    text.length ≤ s.config.maxItems → tokens s.config text ≠ [] → (∀ t ∈ tokens s.config text, IsValidToken t) →
    ∃ (t : State) (a : Response) (fs : List Frame), exec (.parse conv text.length) s = .next t ∧ Answered s t a 0 ∧
      a.Carries 0 conv.bit 0 fs.length (fs.map .frame) ∧ List.Forall₂ IsFrameOf (tokens s.config text) fs

/-- 40_parse R94: a text of length 0 or of whitespace only fails with `EmptyInput`. -/
def Obligations.ParseOfBlankTextFailsEmptyInput : Prop :=
  ∀ (conv : Convention) (text : List CharCode) (s : State), s.payload = text.map .char →
    text.length ≤ s.config.maxItems → (∀ c ∈ text, c ∈ s.config.ws) →
    ∃ (t : State) (a : Response), exec (.parse conv text.length) s = .next t ∧ Answered s t a 0 ∧
      a.Carries 0 conv.bit 1 0 []

/-- 40_parse R95, R96: the leftmost invalid token is reported verbatim, and nothing else is returned. -/
def Obligations.ParseReportsLeftmostInvalidToken : Prop :=
  ∀ (conv : Convention) (text : List CharCode) (s : State) (before after : List Token) (bad : Token),
    s.payload = text.map .char → text.length ≤ s.config.maxItems → tokens s.config text = before ++ bad :: after →
    (∀ t ∈ before, IsValidToken t) → ¬ IsValidToken bad →
    ∃ (t : State) (a : Response), exec (.parse conv text.length) s = .next t ∧ Answered s t a 0 ∧
      a.Carries 0 conv.bit 2 bad.length (bad.map .char)

/-- 40_parse R103: the character-serial reference parser computes `parse`, on every text a request can carry; where it
succeeds its register `nfr` is the number of frames. -/
def Obligations.SerialParserComputesParse : Prop :=
  ∀ (cfg : Config) (text : List CharCode), text.length ≤ cfg.maxItems →
    serialParse cfg text = (parse cfg text).map fun fs => (fs.length, fs)

/-- 40_parse R102, 00_scope R7: the response the reference parser gives is the response of `PARSE`. -/
def Obligations.SerialParserAnswersAsParse : Prop :=
  ∀ (conv : Convention) (text : List CharCode) (s : State), s.payload = text.map .char →
    text.length ≤ s.config.maxItems →
    exec (.parse conv text.length) s = .next (runSerialParse (.parse conv text.length) s)

/-- 40_parse R102: the response is read off the final registers: `malformed(s, l)` gives `MalformedFrame` with that slice
of the text; else no frame gives `EmptyInput`; else the status is `OK`, `m` is `nfr` and the items are `buf`. -/
def Obligations.SerialParserAnswersItsRegisters : Prop :=
  ∀ (conv : Convention) (text : List CharCode) (s : State), s.payload = text.map .char →
    text.length ≤ s.config.maxItems →
    let r := parserFinish (text.foldl (parserStep s.config) (parserInit s.config.cntW.val))
    ∃ a : Response, Answered s (runSerialParse (.parse conv text.length) s) a 0 ∧
      match r.err with
      | some (b, l) => a.Carries 0 conv.bit 2 l.toNat ((slice text b.toNat (b.toNat + l.toNat)).map .char)
      | none =>
        if r.nfr.toNat = 0 then a.Carries 0 conv.bit 1 0 [] else a.Carries 0 conv.bit 0 r.nfr.toNat (r.buf.map .frame)

/-- 20_memory R56: `parse(render(F))` succeeds and returns `F`. -/
def Obligations.ParseOfRenderedFramesReturnsThem : Prop :=
  ∀ (cfg : Config) (fs : List Frame), fs ≠ [] → 0x20#8 ∈ cfg.ws → Config.ch0 ∉ cfg.ws → Config.ch1 ∉ cfg.ws →
    parse cfg (render fs) = .ok fs

/-- 30_encoding R84: the composition `g(parse(s))` is two transactions where `parse` succeeds, and ends with `parse`'s
error where it fails. -/
def Obligations.CompositionIsParseThenOperation : Prop :=
  ∀ (g : List Frame → Request) (text : List CharCode) (s : State), text.length ≤ s.config.maxItems →
    (∀ fs, parse s.config text = .ok fs → ∃ t, step (s.issue (parseRequest text)) = .next t ∧
      composeWithParse g text s = step (t.issue (g fs))) ∧
    (∀ e, parse s.config text = .error e → composeWithParse g text s = step (s.issue (parseRequest text)))

/-! ### CHECK -/

/-- 42_check R120, R122, 30_encoding R71: `CHECK` answers, in frame order, one `CHK` item per frame with the split, the
expected bit, the mismatch and the count of ones, and the number of mismatches in `m`. -/
def Obligations.CheckReportsEveryFrame : Prop :=
  ∀ (conv : Convention) (fs : List Frame) (s : State), s.payload = fs.map .frame → 1 ≤ fs.length →
    fs.length ≤ s.config.maxItems →
    ∃ (t : State) (a : Response) (ws : List (BitVec 16)), exec (.check conv fs.length) s = .next t ∧ Answered s t a 0 ∧
      a.Carries 2 conv.bit 0 (fs.countP fun f => computeParityBit (f.extractLsb' 1 8) conv != f.getLsbD 0)
        (ws.map .chk) ∧
      List.Forall₂ (ChkDescribes conv) fs ws

/-- 42_check R122: the check succeeds, `m` = 0, exactly when no frame of the set mismatches; the status is `OK` whatever
`m` is. -/
def Obligations.CheckSucceedsIffNoFrameMismatches : Prop :=
  ∀ (conv : Convention) (fs : List Frame) (s : State), s.payload = fs.map .frame → 1 ≤ fs.length →
    fs.length ≤ s.config.maxItems →
    ∃ (t : State) (a : Response), exec (.check conv fs.length) s = .next t ∧ t.received = s.received ++ [a] ∧
      (a.word.extractLsb' 24 4).toNat = 0 ∧
      (a.word.extractLsb' 0 16).toNat = fs.countP (fun f => (checkFrame conv f).mismatch) ∧
      (a.checkSucceeded = true ↔ ∀ f ∈ fs, (checkFrame conv f).mismatch = false)

/-- 42_check R121: the five steps of the explanation in their order, as read from the `CHK` item. -/
def Obligations.ExplanationReadFromItem : Prop :=
  ∀ (conv : Convention) (f : Frame),
    explanationOfChk (chkWord conv (checkFrame conv f)) = (checkFrame conv f).explanation ∧
    (checkFrame conv f).explanation =
      [.convention conv, .onesCount (ones (f.extractLsb' 1 8)), .expected (computeParityBit (f.extractLsb' 1 8) conv),
        .received (f.getLsbD 0), .verdict (computeParityBit (f.extractLsb' 1 8) conv != f.getLsbD 0)]

/-- 42_check R124: the closed forms of `mismatch` over all nine bits. -/
def Obligations.MismatchClosedForms : Prop :=
  ∀ f : Frame,
    (∀ conv : Convention, (checkFrame conv f).mismatch = (f.getMsbD 0 ^^ f.getMsbD 1 ^^ f.getMsbD 2 ^^ f.getMsbD 3 ^^
      f.getMsbD 4 ^^ f.getMsbD 5 ^^ f.getMsbD 6 ^^ f.getMsbD 7 ^^ f.getMsbD 8 ^^ conv.bit)) ∧
    ((checkFrame .even f).mismatch = false ↔ ones f % 2 = 0) ∧ ((checkFrame .odd f).mismatch = false ↔ ones f % 2 = 1)

/-- 42_check R126: complementing any set of bits of a frame complements `mismatch` exactly when their number is odd, and
every frame is parity-valid under exactly one convention. -/
def Obligations.FlippedBitsShowByTheirParity : Prop :=
  ∀ (conv : Convention) (f e : Frame),
    (checkFrame conv (f ^^^ e)).mismatch = ((checkFrame conv f).mismatch ^^ decide (ones e % 2 = 1)) ∧
    ((checkFrame .even f).mismatch ^^ (checkFrame .odd f).mismatch) = true

/-- 42_check R125: one flipped bit of a parity-valid frame is always reported, two flipped bits never are. -/
def Obligations.OneFlipDetectedTwoFlipsMissed : Prop :=
  ∀ (conv : Convention) (f : Frame) (i j : Nat), i < 9 → j < 9 → i ≠ j → (checkFrame conv f).mismatch = false →
    (checkFrame conv (flipBit f i)).mismatch = true ∧ (checkFrame conv (flipBit (flipBit f i) j)).mismatch = false

/-! ### GEN -/

/-- 43_generate R135, R136: `GEN` makes exactly `8*n` draws, draw `8*i + j` is data bit `j` of frame `i`, and each frame
ends with the parity bit of its data. -/
def Obligations.GenerateReturnsDrawnFrames : Prop :=
  ∀ (conv : Convention) (n : Nat) (s : State), s.payload = [] → 1 ≤ n → n ≤ s.config.maxItems →
    ∃ (t : State) (a : Response) (fs : List Frame), exec (.gen conv n) s = .next t ∧
      Answered s t a (8 * n) ∧ a.Carries 3 conv.bit 0 n (fs.map .frame) ∧
      fs.length = n ∧
      ∀ i f, fs[i]? = some f → (∀ j, j < 8 → f.getMsbD j = s.randBit (8 * i + j)) ∧
        f.getLsbD 0 = computeParityBit (f.extractLsb' 1 8) conv

/-- 43_generate R139: checking generated frames under their convention reports no mismatch, for every sequence of
draws. -/
def Obligations.GeneratedFramesCheckValid : Prop :=
  ∀ (conv : Convention) (n : Nat) (s : State), s.payload = [] → 1 ≤ n → n ≤ s.config.maxItems →
    ∃ (t : State) (a : Response) (u : State) (b : Response), exec (.gen conv n) s = .next t ∧
      t.received = s.received ++ [a] ∧
      exec (.check conv n) { t with payload := a.payload } = .next u ∧ u.received = t.received ++ [b] ∧
      (b.word.extractLsb' 24 4).toNat = 0 ∧ (b.word.extractLsb' 0 16).toNat = 0 ∧
      ∀ c ∈ b.payload, c.isMismatch = false

/-- 43_generate R140 (the spec's own inference): under the opposite convention every generated frame mismatches. -/
def Obligations.GeneratedFramesMismatchUnderOther : Prop :=
  ∀ (conv : Convention) (n : Nat) (s : State), s.payload = [] → 1 ≤ n → n ≤ s.config.maxItems →
    ∃ (t : State) (a : Response) (u : State) (b : Response), exec (.gen conv n) s = .next t ∧
      t.received = s.received ++ [a] ∧
      exec (.check conv.other n) { t with payload := a.payload } = .next u ∧ u.received = t.received ++ [b] ∧
      (b.word.extractLsb' 24 4).toNat = 0 ∧ (b.word.extractLsb' 0 16).toNat = n

/-- 43_generate R141: every data pattern is a possible result. -/
def Obligations.EveryDataPatternIsGenerable : Prop :=
  ∀ (conv : Convention) (ds : List DataBits) (s : State), s.payload = [] → 1 ≤ ds.length →
    ds.length ≤ s.config.maxItems →
    ∃ (answers : List Nat) (t : State) (a : Response) (fs : List Frame),
      exec (.gen conv ds.length) { s with draws := answers } = .next t ∧
      t.received = s.received ++ [a] ∧ a.payload = fs.map .frame ∧ fs.map (·.extractLsb' 1 8) = ds

/-! ### INJ -/

/-- 44_inject R145, R147, R148: two draws, the frame index first; exactly the drawn bit of the drawn frame is
complemented, and the `MUT` item names it. -/
def Obligations.InjectFlipsTheDrawnBit : Prop :=
  ∀ (conv : Convention) (fs : List Frame) (s : State), s.payload = fs.map .frame → 1 ≤ fs.length →
    fs.length ≤ s.config.maxItems →
    ∃ (t : State) (a : Response) (i j : Nat) (fs' : List Frame) (w : BitVec 32),
      exec (.inj conv fs.length) s = .next t ∧ Answered s t a 2 ∧
      i = s.randIndex 0 fs.length ∧ j = s.randIndex 1 9 ∧ i < fs.length ∧ j < 9 ∧
      a.Carries 4 conv.bit 0 fs.length (fs'.map .frame ++ [.mutation w]) ∧
      (w.extractLsb' 16 16).toNat = i ∧ w.extractLsb' 4 12 = 0#12 ∧ (w.extractLsb' 0 4).toNat = j ∧
      fs'.length = fs.length ∧
      ∀ q f, fs[q]? = some f → fs'[q]? = some (if q = i then f ^^^ (1#9 <<< (8 - j)) else f)

/-- 44_inject R146: zero frames fail with `EmptyFrameSet`, and no draw is made. -/
def Obligations.InjectOfNoFramesFails : Prop :=
  ∀ (conv : Convention) (s : State), s.payload = [] →
    ∃ (t : State) (a : Response), exec (.inj conv 0) s = .next t ∧ Answered s t a 0 ∧ a.Carries 4 conv.bit 3 0 []

/-- 44_inject R148, R149: every frame and every one of the 9 positions, the parity bit among them, is a possible
result. -/
def Obligations.InjectReachesEveryBit : Prop :=
  ∀ (conv : Convention) (fs : List Frame) (s : State) (i j : Nat), s.payload = fs.map .frame → i < fs.length → j < 9 →
    fs.length ≤ s.config.maxItems →
    ∃ (answers : List Nat) (t : State) (a : Response) (fs' : List Frame) (w : BitVec 32),
      exec (.inj conv fs.length) { s with draws := answers } = .next t ∧
      t.received = s.received ++ [a] ∧ a.payload = fs'.map .frame ++ [.mutation w] ∧
      (w.extractLsb' 16 16).toNat = i ∧ (w.extractLsb' 0 4).toNat = j ∧
      ∀ f, fs[i]? = some f → fs'[i]? = some (f ^^^ (1#9 <<< (8 - j)))

/-- 44_inject R151: the flip complements the chosen frame's verdict and leaves every other frame's result alone. -/
def Obligations.InjectionComplementsOneVerdict : Prop :=
  ∀ (conv : Convention) (fs : List Frame) (i j : Nat), i < fs.length → j < 9 →
    ∀ q f, fs[q]? = some f → ∃ f', (flipAt fs { frameIndex := i, bitIndex := j })[q]? = some f' ∧
      (q = i → (checkFrame conv f').mismatch = !(checkFrame conv f).mismatch) ∧
      (q ≠ i → checkFrame conv f' = checkFrame conv f)

/-- 44_inject R152 (c): the same injection twice restores the original set. -/
def Obligations.SameInjectionTwiceRestores : Prop :=
  ∀ (fs : List Frame) (i j : Nat), i < fs.length → j < 9 →
    flipAt (flipAt fs { frameIndex := i, bitIndex := j }) { frameIndex := i, bitIndex := j } = fs

/-! ### CORR -/

/-- 45_correct R160, R162, 30_encoding R72: each frame keeps its data bits and gets the recomputed parity bit; `changed`
says whether the parity bit differed; `m` is the size of the `CorrectionSet`. -/
def Obligations.CorrectRecomputesEveryParityBit : Prop :=
  ∀ (conv : Convention) (fs : List Frame) (s : State), s.payload = fs.map .frame → 1 ≤ fs.length →
    fs.length ≤ s.config.maxItems →
    ∃ (t : State) (a : Response) (ws : List (BitVec 10)), exec (.corr conv fs.length) s = .next t ∧ Answered s t a 0 ∧
      a.Carries 5 conv.bit 0 (fs.countP fun f => computeParityBit (f.extractLsb' 1 8) conv != f.getLsbD 0)
        (ws.map .cframe) ∧
      List.Forall₂ (fun f w => IsCorrectionOf conv f (w.extractLsb' 0 9) ∧
        w.getLsbD 9 = (computeParityBit (f.extractLsb' 1 8) conv != f.getLsbD 0)) fs ws ∧
      ∀ i, i ∈ correctionSet conv fs ↔
        ∃ f, fs[i]? = some f ∧ computeParityBit (f.extractLsb' 1 8) conv ≠ f.getLsbD 0

/-- 45_correct R161: the `CorrectionSet` is the set of mismatching frames, and `m` of `CORR` equals `m` of `CHECK` on
the same request; a request that both refuse has `m` = 0 in both (60_exceptions R174; a next state: log 3). -/
def Obligations.CorrectCountsWhatCheckCounts : Prop :=
  ∀ (conv : Convention) (n : Nat) (s : State),
    (∀ fs : List Frame, ∀ i, i ∈ correctionSet conv fs ↔
      ∃ f, fs[i]? = some f ∧ (checkFrame conv f).mismatch = true) ∧
    ∃ (t u : State) (a b : Response), exec (.check conv n) s = .next t ∧ exec (.corr conv n) s = .next u ∧
      t.received = s.received ++ [a] ∧ u.received = s.received ++ [b] ∧
      b.word.extractLsb' 0 16 = a.word.extractLsb' 0 16

/-- 45_correct R163: `CORR` and then `CHECK` of the frames it returned, under the same convention, reports no
mismatch. -/
def Obligations.CorrectedFramesCheckValid : Prop :=
  ∀ (conv : Convention) (fs : List Frame) (s : State), s.payload = fs.map .frame → 1 ≤ fs.length →
    fs.length ≤ s.config.maxItems →
    ∃ (t u : State) (a b : Response) (ws : List (BitVec 10)), exec (.corr conv fs.length) s = .next t ∧
      t.received = s.received ++ [a] ∧ a.payload = ws.map .cframe ∧
      exec (.check conv fs.length) { t with payload := ws.map fun w => .frame (w.extractLsb' 0 9) } = .next u ∧
      u.received = t.received ++ [b] ∧
      (b.word.extractLsb' 24 4).toNat = 0 ∧ (b.word.extractLsb' 0 16).toNat = 0 ∧
      ∀ c ∈ b.payload, c.isMismatch = false

/-- 45_correct R163 with R164 (the spec's own inference): a corrected set has no mismatch; correcting it again changes
nothing; under the other convention every frame is changed. -/
def Obligations.CorrectionIsIdempotent : Prop :=
  ∀ (conv : Convention) (fs : List Frame),
    (∀ f ∈ correctFrames conv fs, (checkFrame conv f).mismatch = false) ∧
    correctFrames conv (correctFrames conv fs) = correctFrames conv fs ∧
    correctionSet conv (correctFrames conv fs) = [] ∧
    correctionSet conv.other (correctFrames conv fs) = List.range fs.length

/-- 45_correct R165: correction fits the parity bit to corrupted data and does not recover it; it does restore a valid
frame whose parity bit was flipped. -/
def Obligations.CorrectionDoesNotUndoDataErrors : Prop :=
  ∀ (conv : Convention) (f : Frame),
    (∀ j, j < 8 → (checkFrame conv (correctFrame conv (flipBit f j))).mismatch = false ∧
      dataOf (correctFrame conv (flipBit f j)) = dataOf (flipBit f j) ∧ dataOf (flipBit f j) ≠ dataOf f) ∧
    ((checkFrame conv f).mismatch = false → correctFrame conv (flipBit f 8) = f)

/-! ### Draws -/

/-- 60_exceptions R186: a draw lies in its range, and every value of the range is a possible answer. -/
def Obligations.DrawsRangeOverAllValues : Prop :=
  (∀ (s : State) (k n : Nat), 1 ≤ n → s.randIndex k n < n) ∧
  (∀ (s : State) (n r : Nat), r < n → ∃ answers, ({ s with draws := answers } : State).randIndex 0 n = r) ∧
  (∀ (s : State) (b : Bool), ∃ answers, ({ s with draws := answers } : State).randBit 0 = b)
end

