-- ==== Sys2Proof/Laws/Bits.lean ====
section
/-! SUPPORT. Bits of placed fields, and the fields of every word the model builds. -/

namespace Sys2Proof

/-- Bit `i` of a placed field. -/
theorem place_getLsbD {k : Nat} (w lo : Nat) (v : BitVec k) (i : Nat) :
    (place w lo v).getLsbD i = (decide (i < w) && decide (lo ≤ i) && v.getLsbD (i - lo)) := by
  by_cases h1 : i < w <;> by_cases h2 : lo ≤ i <;> simp [place, h1, h2]

/-- Bit `i` of a placed field, by position. -/
theorem place_getElem {k : Nat} (w lo : Nat) (v : BitVec k) (i : Nat) (h : i < w) :
    (place w lo v)[i] = (decide (lo ≤ i) && v.getLsbD (i - lo)) := by
  rw [← BitVec.getLsbD_eq_getElem, place_getLsbD]; simp [h]

/-! ### Request words -/

theorem encode_opField (i : Instr) : (encode i).extractLsb' 29 3 = i.opcode := by
  cases i <;>
  · apply BitVec.eq_of_getLsbD_eq
    intro j hj
    interval_cases j <;> simp [encode, Instr.operandField, place_getElem]

theorem encode_convField (i : Instr) : (encode i).getLsbD 28 = i.conv.bit := by
  cases i <;> simp [encode, Instr.operandField, place_getElem]

end Sys2Proof

namespace Sys2Proof.Machine

/-! ### Response words (30_encoding R74) -/

@[simp] theorem rspWord_opField (op : BitVec 3) (conv : Convention) (st : Status) (m : Nat) :
    (rspWord op conv st m).extractLsb' 29 3 = op := by
  apply BitVec.eq_of_getLsbD_eq
  intro j hj
  interval_cases j <;> simp [rspWord, place_getElem]

@[simp] theorem rspWord_convBit (op : BitVec 3) (conv : Convention) (st : Status) (m : Nat) :
    (rspWord op conv st m).getLsbD 28 = conv.bit := by
  simp [rspWord, place_getElem]

@[simp] theorem rspWord_statusField (op : BitVec 3) (conv : Convention) (st : Status) (m : Nat) :
    (rspWord op conv st m).extractLsb' 24 4 = st.code := by
  apply BitVec.eq_of_getLsbD_eq
  intro j hj
  interval_cases j <;> simp [rspWord, place_getElem]

@[simp] theorem rspWord_zeroField (op : BitVec 3) (conv : Convention) (st : Status) (m : Nat) :
    (rspWord op conv st m).extractLsb' 16 8 = 0#8 := by
  apply BitVec.eq_of_getLsbD_eq
  intro j hj
  interval_cases j <;> simp [rspWord, place_getElem]

@[simp] theorem rspWord_countField (op : BitVec 3) (conv : Convention) (st : Status) (m : Nat) :
    (rspWord op conv st m).extractLsb' 0 16 = BitVec.ofNat 16 m := by
  apply BitVec.eq_of_getLsbD_eq
  intro j hj
  interval_cases j <;> simp [rspWord, place_getElem, BitVec.getLsbD_eq_getElem]

/-- A built response has the fields it was built from, where the count fits its field (20_memory R49). -/
theorem rspWord_carries (op : BitVec 3) (conv : Convention) (st : Status) (m : Nat) (items : List Item)
    (h : m < 2 ^ 16) :
    ({ word := rspWord op conv st m, payload := items } : Response).Carries op.toNat conv.bit st.code.toNat m
      items := by
  have hc := rspWord_convBit op conv st m
  simp only [Response.Carries, rspWord_opField, rspWord_statusField, rspWord_zeroField, rspWord_countField, hc,
    BitVec.toNat_ofNat, Nat.mod_eq_of_lt h, and_self]

/-! ### Frames and items (30_encoding R70 to R73) -/

@[simp] theorem frameOfParts_data (b : DataBits) (p : Bool) : dataOf (frameOfParts b p) = b := by
  apply BitVec.eq_of_getLsbD_eq
  intro j hj
  interval_cases j <;> simp [frameOfParts, dataOf, place_getElem]

@[simp] theorem frameOfParts_par (b : DataBits) (p : Bool) : parOf (frameOfParts b p) = p := by
  simp [frameOfParts, parOf, place_getElem]

/-- A frame is its data bits and its parity bit. -/
theorem frame_eq_of_parts {f g : Frame} (hd : dataOf f = dataOf g) (hp : parOf f = parOf g) : f = g := by
  apply BitVec.eq_of_getLsbD_eq
  intro j hj
  rcases j with _ | j
  · exact hp
  · have := congrArg (fun b => b.getLsbD j) hd
    have hj' : j < 8 := by omega
    simpa [dataOf, hj', Nat.add_comm] using this

/-- There are at most 8 ones among 8 bits (41_parity R115). -/
theorem ones_le_width {w : Nat} (b : BitVec w) : ones b ≤ w := by
  have := List.count_le_length (a := true) (l := bits b)
  simpa [ones, bits] using this

theorem chkWord_dataBits (conv : Convention) (r : CheckResult) :
    (chkWord conv r).extractLsb' 8 8 = r.dataBits := by
  apply BitVec.eq_of_getLsbD_eq
  intro j hj
  interval_cases j <;> simp [chkWord, place_getElem]

theorem chkWord_received (conv : Convention) (r : CheckResult) :
    (chkWord conv r).getLsbD 7 = r.receivedParityBit := by
  simp [chkWord, place_getElem]

theorem chkWord_expected (conv : Convention) (r : CheckResult) :
    (chkWord conv r).getLsbD 6 = r.expectedParityBit := by
  simp [chkWord, place_getElem]

theorem chkWord_mismatch (conv : Convention) (r : CheckResult) :
    (chkWord conv r).getLsbD 5 = r.mismatch := by
  simp [chkWord, place_getElem]

theorem chkWord_conv (conv : Convention) (r : CheckResult) :
    (chkWord conv r).getLsbD 4 = conv.bit := by
  simp [chkWord, place_getElem]

theorem chkWord_onesField (conv : Convention) (r : CheckResult) :
    (chkWord conv r).extractLsb' 0 4 = BitVec.ofNat 4 (ones r.dataBits) := by
  apply BitVec.eq_of_getLsbD_eq
  intro j hj
  interval_cases j <;> simp [chkWord, place_getElem, BitVec.getLsbD_eq_getElem]

theorem chkWord_ones (conv : Convention) (r : CheckResult) :
    ((chkWord conv r).extractLsb' 0 4).toNat = ones r.dataBits := by
  have := ones_le_width r.dataBits
  rw [chkWord_onesField]
  simp only [BitVec.toNat_ofNat]
  omega

theorem cframeWord_changed (c : Bool) (f : Frame) : (cframeWord c f).getLsbD 9 = c := by
  simp [cframeWord, place_getElem]

theorem cframeWord_frame (c : Bool) (f : Frame) : (cframeWord c f).extractLsb' 0 9 = f := by
  apply BitVec.eq_of_getLsbD_eq
  intro j hj
  interval_cases j <;> simp [cframeWord, place_getElem]

theorem mutWord_frameIndex (m : BitMutation) (h : m.frameIndex < 2 ^ 16) :
    ((mutWord m).extractLsb' 16 16).toNat = m.frameIndex := by
  have : (mutWord m).extractLsb' 16 16 = BitVec.ofNat 16 m.frameIndex := by
    apply BitVec.eq_of_getLsbD_eq
    intro j hj
    interval_cases j <;> simp [mutWord, place_getElem, BitVec.getLsbD_eq_getElem]
  rw [this, BitVec.toNat_ofNat, Nat.mod_eq_of_lt h]

theorem mutWord_zeroField (m : BitMutation) : (mutWord m).extractLsb' 4 12 = 0#12 := by
  apply BitVec.eq_of_getLsbD_eq
  intro j hj
  interval_cases j <;> simp [mutWord, place_getElem]

theorem mutWord_bitIndex (m : BitMutation) (h : m.bitIndex < 2 ^ 4) :
    ((mutWord m).extractLsb' 0 4).toNat = m.bitIndex := by
  have : (mutWord m).extractLsb' 0 4 = BitVec.ofNat 4 m.bitIndex := by
    apply BitVec.eq_of_getLsbD_eq
    intro j hj
    interval_cases j <;> simp [mutWord, place_getElem, BitVec.getLsbD_eq_getElem]
  rw [this, BitVec.toNat_ofNat, Nat.mod_eq_of_lt h]

end Sys2Proof.Machine
end

