-- ==== Sys2Proof/Laws/State.lean ====
section
/-! SUPPORT. One lemma per field per update of the state, and the fields of the state after reset. -/

namespace Sys2Proof.Machine

@[simp] theorem State.send_config (s : State) (r : Response) : (s.send r).config = s.config := rfl
@[simp] theorem State.send_payload (s : State) (r : Response) : (s.send r).payload = [] := rfl
@[simp] theorem State.send_callerProgram (s : State) (r : Response) :
    (s.send r).callerProgram = s.callerProgram := rfl
@[simp] theorem State.send_received (s : State) (r : Response) : (s.send r).received = s.received ++ [r] := rfl
@[simp] theorem State.send_draws (s : State) (r : Response) : (s.send r).draws = s.draws := rfl
@[simp] theorem State.send_drawCount (s : State) (r : Response) : (s.send r).drawCount = s.drawCount := rfl

@[simp] theorem State.respond_config (s : State) (i : Instr) (st : Status) (m : Nat) (items : List Item) :
    (s.respond i st m items).config = s.config := rfl
@[simp] theorem State.respond_payload (s : State) (i : Instr) (st : Status) (m : Nat) (items : List Item) :
    (s.respond i st m items).payload = [] := rfl
@[simp] theorem State.respond_callerProgram (s : State) (i : Instr) (st : Status) (m : Nat) (items : List Item) :
    (s.respond i st m items).callerProgram = s.callerProgram := rfl
@[simp] theorem State.respond_received (s : State) (i : Instr) (st : Status) (m : Nat) (items : List Item) :
    (s.respond i st m items).received =
      s.received ++ [{ word := rspWord i.opcode i.conv st m, payload := items }] := rfl
@[simp] theorem State.respond_draws (s : State) (i : Instr) (st : Status) (m : Nat) (items : List Item) :
    (s.respond i st m items).draws = s.draws := rfl
@[simp] theorem State.respond_drawCount (s : State) (i : Instr) (st : Status) (m : Nat) (items : List Item) :
    (s.respond i st m items).drawCount = s.drawCount := rfl

@[simp] theorem State.raise_config (s : State) (i : Instr) (e : Status) (info : List Item) :
    (s.raise i e info).config = s.config := rfl
@[simp] theorem State.raise_payload (s : State) (i : Instr) (e : Status) (info : List Item) :
    (s.raise i e info).payload = [] := rfl
@[simp] theorem State.raise_callerProgram (s : State) (i : Instr) (e : Status) (info : List Item) :
    (s.raise i e info).callerProgram = s.callerProgram := rfl
@[simp] theorem State.raise_received (s : State) (i : Instr) (e : Status) (info : List Item) :
    (s.raise i e info).received =
      s.received ++ [{ word := rspWord i.opcode i.conv e info.length, payload := info }] := rfl
@[simp] theorem State.raise_draws (s : State) (i : Instr) (e : Status) (info : List Item) :
    (s.raise i e info).draws = s.draws := rfl
@[simp] theorem State.raise_drawCount (s : State) (i : Instr) (e : Status) (info : List Item) :
    (s.raise i e info).drawCount = s.drawCount := rfl

@[simp] theorem State.refuse_config (s : State) (op : BitVec 3) (conv : Convention) :
    (s.refuse op conv).config = s.config := rfl
@[simp] theorem State.refuse_payload (s : State) (op : BitVec 3) (conv : Convention) :
    (s.refuse op conv).payload = [] := rfl
@[simp] theorem State.refuse_callerProgram (s : State) (op : BitVec 3) (conv : Convention) :
    (s.refuse op conv).callerProgram = s.callerProgram := rfl
@[simp] theorem State.refuse_received (s : State) (op : BitVec 3) (conv : Convention) :
    (s.refuse op conv).received = s.received ++ [{ word := rspWord op conv .illegalRequest 0, payload := [] }] := rfl
@[simp] theorem State.refuse_draws (s : State) (op : BitVec 3) (conv : Convention) :
    (s.refuse op conv).draws = s.draws := rfl
@[simp] theorem State.refuse_drawCount (s : State) (op : BitVec 3) (conv : Convention) :
    (s.refuse op conv).drawCount = s.drawCount := rfl

@[simp] theorem State.refuseWord_config (s : State) (w : Word) : (s.refuseWord w).config = s.config := rfl
@[simp] theorem State.refuseWord_payload (s : State) (w : Word) : (s.refuseWord w).payload = [] := rfl
@[simp] theorem State.refuseWord_callerProgram (s : State) (w : Word) :
    (s.refuseWord w).callerProgram = s.callerProgram := rfl
@[simp] theorem State.refuseWord_received (s : State) (w : Word) :
    (s.refuseWord w).received =
      s.received ++ [{ word := rspWord (opField w) (convField w) .illegalRequest 0, payload := [] }] := rfl
@[simp] theorem State.refuseWord_draws (s : State) (w : Word) : (s.refuseWord w).draws = s.draws := rfl
@[simp] theorem State.refuseWord_drawCount (s : State) (w : Word) : (s.refuseWord w).drawCount = s.drawCount := rfl

@[simp] theorem State.consume_config (s : State) (k : Nat) : (s.consume k).config = s.config := rfl
@[simp] theorem State.consume_payload (s : State) (k : Nat) : (s.consume k).payload = s.payload := rfl
@[simp] theorem State.consume_callerProgram (s : State) (k : Nat) :
    (s.consume k).callerProgram = s.callerProgram := rfl
@[simp] theorem State.consume_received (s : State) (k : Nat) : (s.consume k).received = s.received := rfl
@[simp] theorem State.consume_draws (s : State) (k : Nat) : (s.consume k).draws = s.draws.drop k := rfl
@[simp] theorem State.consume_drawCount (s : State) (k : Nat) : (s.consume k).drawCount = s.drawCount + k := rfl

@[simp] theorem State.take_config (s : State) (r : Request) (rest : List Request) :
    (s.take r rest).config = s.config := rfl
@[simp] theorem State.take_payload (s : State) (r : Request) (rest : List Request) :
    (s.take r rest).payload = r.payload := rfl
@[simp] theorem State.take_callerProgram (s : State) (r : Request) (rest : List Request) :
    (s.take r rest).callerProgram = rest := rfl
@[simp] theorem State.take_received (s : State) (r : Request) (rest : List Request) :
    (s.take r rest).received = s.received := rfl
@[simp] theorem State.take_draws (s : State) (r : Request) (rest : List Request) :
    (s.take r rest).draws = s.draws := rfl
@[simp] theorem State.take_drawCount (s : State) (r : Request) (rest : List Request) :
    (s.take r rest).drawCount = s.drawCount := rfl

@[simp] theorem State.engineReset_config (s : State) : (s.engineReset).config = s.config := rfl
@[simp] theorem State.engineReset_payload (s : State) : (s.engineReset).payload = [] := rfl
@[simp] theorem State.engineReset_callerProgram (s : State) : (s.engineReset).callerProgram = s.callerProgram := rfl
@[simp] theorem State.engineReset_received (s : State) : (s.engineReset).received = s.received := rfl
@[simp] theorem State.engineReset_draws (s : State) : (s.engineReset).draws = s.draws := rfl
@[simp] theorem State.engineReset_drawCount (s : State) : (s.engineReset).drawCount = s.drawCount := rfl

@[simp] theorem State.issue_config (s : State) (r : Request) : (s.issue r).config = s.config := rfl
@[simp] theorem State.issue_payload (s : State) (r : Request) : (s.issue r).payload = s.payload := rfl
@[simp] theorem State.issue_callerProgram (s : State) (r : Request) :
    (s.issue r).callerProgram = r :: s.callerProgram := rfl
@[simp] theorem State.issue_received (s : State) (r : Request) : (s.issue r).received = s.received := rfl
@[simp] theorem State.issue_draws (s : State) (r : Request) : (s.issue r).draws = s.draws := rfl
@[simp] theorem State.issue_drawCount (s : State) (r : Request) : (s.issue r).drawCount = s.drawCount := rfl

@[simp] theorem State.withFetchWord_config (s : State) (nbits w : Nat) :
    (s.withFetchWord nbits w).config = s.config := rfl
@[simp] theorem State.withFetchWord_payload (s : State) (nbits w : Nat) :
    (s.withFetchWord nbits w).payload = s.payload := rfl
@[simp] theorem State.withFetchWord_callerProgram (s : State) (nbits w : Nat) :
    (s.withFetchWord nbits w).callerProgram = zeroRequest (BitVec.ofNat 32 (w % 2 ^ nbits)) :: s.callerProgram := rfl
@[simp] theorem State.withFetchWord_received (s : State) (nbits w : Nat) :
    (s.withFetchWord nbits w).received = s.received := rfl
@[simp] theorem State.withFetchWord_draws (s : State) (nbits w : Nat) :
    (s.withFetchWord nbits w).draws = s.draws := rfl
@[simp] theorem State.withFetchWord_drawCount (s : State) (nbits w : Nat) :
    (s.withFetchWord nbits w).drawCount = s.drawCount := rfl

@[simp] theorem State.reset_config : State.reset.config = Config.default := rfl
@[simp] theorem State.reset_payload : State.reset.payload = [] := rfl
@[simp] theorem State.reset_callerProgram : State.reset.callerProgram = [] := rfl
@[simp] theorem State.reset_received : State.reset.received = [] := rfl
@[simp] theorem State.reset_draws : State.reset.draws = [] := rfl
@[simp] theorem State.reset_drawCount : State.reset.drawCount = 0 := rfl

end Sys2Proof.Machine
end

