-- ==== Sys2Proof/Laws/Ops.lean ====
section
/-! SUPPORT. Everything the shared operations can do, said once. -/

namespace Sys2Proof.Machine

/-! ### Payloads -/

@[simp] theorem charsOf_map_char (t : List CharCode) : charsOf (t.map .char) = t := by
  simp [charsOf, List.filterMap_map]

@[simp] theorem framesOf_map_frame (fs : List Frame) : framesOf (fs.map .frame) = fs := by
  simp [framesOf, List.filterMap_map]

/-- A payload of `CHAR` items only is the list of its characters. -/
theorem map_charsOf {p : List Item} (h : p.all Item.isChar = true) : (charsOf p).map .char = p := by
  induction p with
  | nil => rfl
  | cons x p ih =>
    rw [List.all_cons, Bool.and_eq_true] at h
    cases x <;> first | exact congrArg _ (ih h.2) | exact Bool.noConfusion h.1

/-- A payload of `FRAME` items only is the list of its frames. -/
theorem map_framesOf {p : List Item} (h : p.all Item.isFrame = true) : (framesOf p).map .frame = p := by
  induction p with
  | nil => rfl
  | cons x p ih =>
    rw [List.all_cons, Bool.and_eq_true] at h
    cases x <;> first | exact congrArg _ (ih h.2) | exact Bool.noConfusion h.1

@[simp] theorem all_isChar_map (t : List CharCode) : (t.map Item.char).all Item.isChar = true := by
  simp [Item.isChar]

@[simp] theorem all_isFrame_map (fs : List Frame) : (fs.map Item.frame).all Item.isFrame = true := by
  simp [Item.isFrame]

/-! ### Legality -/

/-- `MAX_ITEMS` fits the 16-bit fields of the words. -/
theorem maxItems_lt (cfg : Config) : cfg.maxItems < 2 ^ 16 := by
  have := Nat.pow_le_pow_right (n := 2) (by decide) (Nat.le_of_lt_succ cfg.cntW.isLt)
  unfold Config.maxItems
  omega

/-- When a request is legal (30_encoding R81 steps (3) to (5), and the machine's limit). -/
theorem illegal_eq_none_iff (cfg : Config) (i : Instr) (p : List Item) :
    illegal cfg i p = none ↔ countOf i ≤ cfg.maxItems ∧ p.length = requiredItems i ∧ zeroCountForbidden i = false ∧
      itemsOfType i p = true := by
  unfold illegal
  split_ifs with h0 h1 h2 h3
  · simp [h0]
  · simp [h1]
  · simp [h2]
  · simpa using fun _ _ _ => h3
  · simpa using ⟨Nat.not_lt.1 h0, not_not.1 h1, Bool.eq_false_of_not_eq_true h2, by simpa using h3⟩

/-- Serving a legal request runs its operation. -/
theorem serve_of_legal {i : Instr} {s : State} (run : State → State) (h : illegal s.config i s.payload = none) :
    serve i s run = .next (run s) := by
  simp [serve, h]

/-- Serving an illegal request refuses it. -/
theorem serve_of_illegal {i : Instr} {s : State} (run : State → State) (h : illegal s.config i s.payload ≠ none) :
    serve i s run = .next (s.refuse i.opcode i.conv) := by
  unfold serve
  split
  · contradiction
  · rfl

/-- All that serving can do: run the operation of a legal request, or refuse an illegal one. -/
theorem serve_cases {i : Instr} {s t : State} {run : State → State} (h : serve i s run = .next t) :
    (illegal s.config i s.payload = none ∧ t = run s) ∨ (illegal s.config i s.payload ≠ none ∧ t = s.refuse i.opcode i.conv) := by
  by_cases hl : illegal s.config i s.payload = none
  · rw [serve_of_legal run hl] at h
    exact .inl ⟨hl, (Host.Outcome.next.inj h).symm⟩
  · rw [serve_of_illegal run hl] at h
    exact .inr ⟨hl, (Host.Outcome.next.inj h).symm⟩

/-! ### Draws -/

/-- After `k` draws the source goes on where it stood. -/
@[simp] theorem State.answer_consume (s : State) (k j : Nat) : (s.consume k).answer j = s.answer (k + j) := by
  simp [State.answer, State.consume, Nat.add_assoc]

/-- Answers known in advance are given in order. -/
theorem State.answer_of_known (s : State) {k v : Nat} (h : s.draws[k]? = some v) : s.answer k = v := by
  simp [State.answer, h]

/-- `RandIndex(n)` is in its range (60_exceptions R186). -/
theorem State.randIndex_lt (s : State) (k : Nat) {n : Nat} (h : 0 < n) : s.randIndex k n < n :=
  Nat.mod_lt _ h

/-- Only the answer matters to a draw. -/
theorem State.randIndex_congr {s t : State} {k : Nat} (h : s.answer k = t.answer k) (n : Nat) :
    s.randIndex k n = t.randIndex k n := by
  simp [State.randIndex, h]

theorem State.randBit_congr {s t : State} {k : Nat} (h : s.answer k = t.answer k) : s.randBit k = t.randBit k := by
  simp [State.randBit, h]

/-- There are as many drawn values as draws made. -/
theorem drawn_length (i : Instr) (p : List Item) (s : State) : (drawn i p s).length = drawsMade s.config i p := by
  cases i with
  | gen c n => simp [drawn]
  | inj c n => simp only [drawn, drawsMade]; split <;> simp_all
  | parse | par | check | corr => rfl

/-- Equal answers to the draws an operation makes, and to no others, give equal draws. -/
theorem drawn_congr {i : Instr} {p : List Item} {s t : State} (hc : s.config = t.config)
    (h : ∀ k, k < drawsMade s.config i p → s.answer k = t.answer k) : drawn i p s = drawn i p t := by
  cases i with
  | gen c n =>
    simp only [drawn, ← hc]
    exact List.map_congr_left fun k hk => by rw [State.randBit_congr (h k (List.mem_range.1 hk))]
  | inj c n =>
    simp only [drawn, ← hc]
    split
    · rfl
    · have h2 : drawsMade s.config (.inj c n) p = 2 := by
        simp only [drawsMade] at *
        split at * <;> simp_all
      rw [State.randIndex_congr (h 0 (by omega)), State.randIndex_congr (h 1 (by omega))]
  | parse | par | check | corr => rfl

/-- Equal draws of a legal `GEN` are equal bits. -/
theorem randBit_of_drawn {c : Convention} {n : Nat} {p : List Item} {s t : State} (hc : s.config = t.config)
    (h : drawn (.gen c n) p s = drawn (.gen c n) p t) {k : Nat} (hk : k < drawsMade s.config (.gen c n) p) :
    s.randBit k = t.randBit k := by
  simp only [drawn, ← hc] at h
  have := List.map_inj_left.1 h k (List.mem_range.2 hk)
  revert this
  cases s.randBit k <;> cases t.randBit k <;> simp

@[simp] theorem State.respond_answer (s : State) (i : Instr) (st : Status) (m : Nat) (items : List Item) (k : Nat) :
    (s.respond i st m items).answer k = s.answer k := rfl

@[simp] theorem State.take_answer (s : State) (r : Request) (rest : List Request) (k : Nat) :
    (s.take r rest).answer k = s.answer k := rfl

end Sys2Proof.Machine
end

