-- ==== Sys2Proof/Laws/Exec.lean ====
section
/-! SUPPORT. What each operation does with a legal request, and what a step can do. -/

namespace Sys2Proof.Machine

/-- All that executing an operation can do: serve it with that operation's own run. -/
theorem exec_eq_serve (i : Instr) (s : State) :
    exec i s = serve i s (match i with
      | .parse _ _ => runParse i
      | .par conv d => fun s => s.respond i .ok (computeParityBit d conv).toNat []
      | .check conv _ => runCheck conv i
      | .gen conv n => runGen conv n i
      | .inj _ _ => runInj i
      | .corr conv _ => runCorr conv i) := by
  cases i <;> rfl

/-! ### The response to a parse of either kind -/

@[simp] theorem State.respondParse_ok (s : State) (i : Instr) (m : Nat) (fs : List Frame) :
    s.respondParse i (.ok (m, fs)) = s.respond i .ok m (fs.map .frame) := rfl

@[simp] theorem State.respondParse_emptyInput (s : State) (i : Instr) :
    s.respondParse i (.error .emptyInput) = s.raise i .emptyInput [] := rfl

@[simp] theorem State.respondParse_malformedFrame (s : State) (i : Instr) (t : Token) :
    s.respondParse i (.error (.malformedFrame t)) = s.raise i .malformedFrame (t.map .char) := rfl

/-- All that `PARSE` can answer to a legal request: frames, `EmptyInput` or the leftmost invalid token. -/
theorem runParse_cases (i : Instr) (s : State) :
    (∃ fs, parse s.config (charsOf s.payload) = .ok fs ∧
      runParse i s = s.respond i .ok fs.length (fs.map .frame)) ∨
    (parse s.config (charsOf s.payload) = .error .emptyInput ∧ runParse i s = s.raise i .emptyInput []) ∨
    (∃ t, parse s.config (charsOf s.payload) = .error (.malformedFrame t) ∧
      runParse i s = s.raise i .malformedFrame (t.map .char)) := by
  unfold runParse
  rcases h : parse s.config (charsOf s.payload) with (_ | t) | fs
  · exact .inr (.inl ⟨rfl, rfl⟩)
  · exact .inr (.inr ⟨t, rfl, rfl⟩)
  · exact .inl ⟨fs, rfl, rfl⟩

/-- All that `INJ` can answer to a legal request: `EmptyFrameSet` without a draw, or one flip with two draws. -/
theorem runInj_cases (i : Instr) (s : State) :
    (framesOf s.payload = [] ∧ runInj i s = s.raise i .emptyFrameSet []) ∨
    (framesOf s.payload ≠ [] ∧ runInj i s =
      (s.consume 2).respond i .ok (framesOf s.payload).length
        ((flipAt (framesOf s.payload) (drawnMutation (framesOf s.payload).length s)).map .frame
          ++ [.mutation (mutWord (drawnMutation (framesOf s.payload).length s))])) := by
  by_cases h : framesOf s.payload = []
  · exact .inl ⟨h, by simp [runInj, h]⟩
  · exact .inr ⟨h, by simp [runInj, h]⟩

/-! ### What each way of ending an operation answers -/

theorem answered_respond (s : State) (i : Instr) (st : Status) (m : Nat) (items : List Item) :
    Answered s (s.respond i st m items) { word := rspWord i.opcode i.conv st m, payload := items } 0 := rfl

theorem answered_raise (s : State) (i : Instr) (e : Status) (info : List Item) :
    Answered s (s.raise i e info) { word := rspWord i.opcode i.conv e info.length, payload := info } 0 := rfl

theorem answered_refuse (s : State) (op : BitVec 3) (conv : Convention) :
    Answered s (s.refuse op conv) { word := rspWord op conv .illegalRequest 0, payload := [] } 0 := rfl

theorem answered_consume_respond (s : State) (k : Nat) (i : Instr) (st : Status) (m : Nat) (items : List Item) :
    Answered s ((s.consume k).respond i st m items) { word := rspWord i.opcode i.conv st m, payload := items } k := rfl

/-! ### Steps -/

/-- All that a step can do: stay idle, run the decoded operation, or refuse a word that selects none. -/
theorem step_cases (s : State) :
    (s.callerProgram = [] ∧ step s = .next s) ∨
    (∃ r rest i, s.callerProgram = r :: rest ∧ decode r.word = .ok i ∧ step s = exec i (s.take r rest)) ∨
    (∃ r rest e, s.callerProgram = r :: rest ∧ decode r.word = .error e ∧
      step s = .next ((s.take r rest).refuseWord r.word)) := by
  unfold step
  split
  · exact .inl ⟨‹_›, rfl⟩
  · split
    · exact .inr (.inl ⟨_, _, _, ‹_›, ‹_›, rfl⟩)
    · exact .inr (.inr ⟨_, _, _, ‹_›, ‹_›, rfl⟩)

end Sys2Proof.Machine
end

