-- ==== Sys2Proof/Laws/Frames.lean ====
section
/-! SUPPORT. Bit sequences, single-bit updates, generated frames and the `CorrectionSet`. -/

namespace Sys2Proof.Machine

/-! ### Bit sequences -/

@[simp] theorem bits_length {w : Nat} (b : BitVec w) : (bits b).length = w := by simp [bits]

/-- Member `j` of a word's bit sequence. -/
theorem bits_getElem? {w : Nat} (b : BitVec w) (j : Nat) : (bits b)[j]?.getD false = b.getMsbD j := by
  by_cases h : j < w
  · simp [bits, h]
  · simp [bits, h, BitVec.getMsbD_eq_getLsbD]

/-- A bit of a word into which a sequence was shifted: of the sequence, or of what stood there before. -/
theorem foldl_shiftConcat_getLsbD {w : Nat} (l : List Bool) (acc : BitVec w) (i : Nat) :
    (l.foldl BitVec.shiftConcat acc).getLsbD i =
      (decide (i < w) && if i < l.length then l.reverse[i]?.getD false else acc.getLsbD (i - l.length)) := by
  induction l generalizing acc with
  | nil =>
    by_cases h : i < w <;> simp [h]
    exact BitVec.getLsbD_of_ge _ _ (by omega)
  | cons b l ih =>
    rw [List.foldl_cons, ih, BitVec.getLsbD_shiftConcat]
    by_cases h : i < w <;> simp only [h, decide_true, decide_false, Bool.true_and, Bool.false_and]
    rcases Nat.lt_trichotomy i l.length with h1 | h1 | h1
    · simp [h1, Nat.lt_succ_of_lt h1]
    · subst h1
      simp
      intro
      omega
    · have h2 : ¬ i < l.length := by omega
      have h3 : ¬ i < (b :: l).length := by simp; omega
      have h4 : i - l.length ≠ 0 := by omega
      have h5 : i - l.length < w := by omega
      have h6 : i - l.length - 1 = i - (b :: l).length := by simp; omega
      rw [if_neg h2, if_neg h3, if_neg h4, h6]
      simp [h5]

/-- Bit `j` of the word written by a sequence of the word's length is its member `j` (00_scope R11). -/
theorem ofBits_getMsbD {w : Nat} (l : List Bool) (hl : l.length = w) (j : Nat) :
    (ofBits l : BitVec w).getMsbD j = l[j]?.getD false := by
  unfold ofBits
  rw [BitVec.getMsbD_eq_getLsbD, foldl_shiftConcat_getLsbD]
  by_cases h : j < w
  · have h1 : w - 1 - j < l.length := by omega
    rw [if_pos h1, List.getElem?_reverse h1]
    have : l.length - 1 - (w - 1 - j) = j := by omega
    simp [h, this]
    intro
    omega
  · simp [h, List.getElem?_eq_none (by omega : l.length ≤ j)]

/-- A word is what its bit sequence writes. -/
theorem ofBits_bits {w : Nat} (b : BitVec w) : ofBits (bits b) = b :=
  BitVec.eq_of_getMsbD_eq fun j _ => by rw [ofBits_getMsbD _ (bits_length b), bits_getElem?]

/-- The exclusive-or of a sequence is the parity of its number of ones (41_parity R112). -/
theorem foldl_xor_eq_count (l : List Bool) (a : Bool) :
    l.foldl (· ^^ ·) a = (a ^^ decide (l.count true % 2 = 1)) := by
  induction l generalizing a with
  | nil => simp
  | cons x l ih =>
    rw [List.foldl_cons, ih]
    cases x <;> simp
    rcases Nat.mod_two_eq_zero_or_one (l.count true) with h | h <;> simp [h, Nat.add_mod]

/-! ### Updates of one bit -/

/-- `f[j := v]` writes bit `j` and leaves the others (20_memory R51). -/
theorem frameSet_getMsbD (f : Frame) (j : Nat) (v : Bool) (i : Nat) (hj : j < 9) :
    (frameSet f j v).getMsbD i = if i = j then v else f.getMsbD i := by
  unfold frameSet
  rw [ofBits_getMsbD _ (by simp), List.getElem?_set]
  by_cases h : i = j
  · subst h
    simp [hj]
  · simp [h, Ne.symm h, bits_getElem?]

/-- A flip complements bit `j` and leaves the others (44_inject R147). -/
theorem flipBit_getMsbD (f : Frame) (j i : Nat) (hj : j < 9) :
    (flipBit f j).getMsbD i = (f.getMsbD i ^^ decide (i = j)) := by
  unfold flipBit frameBit
  rw [frameSet_getMsbD _ _ _ _ hj]
  by_cases h : i = j
  · subst h
    simp
  · simp [h]

@[simp] theorem flipAt_length (fs : List Frame) (m : BitMutation) : (flipAt fs m).length = fs.length := by
  simp [flipAt]

/-- A frame of the set after an injection (44_inject R147). -/
theorem flipAt_getElem? (fs : List Frame) (m : BitMutation) (q : Nat) :
    (flipAt fs m)[q]? = (fs[q]?).map fun f => if q = m.frameIndex then flipBit f m.bitIndex else f := by
  unfold flipAt
  rw [List.getElem?_modify]
  by_cases h : q = m.frameIndex
  · simp [h]
  · simp [h, Ne.symm h]

/-! ### Data bits and parity bit of a built frame -/

/-- Data bit `j` of a built frame. -/
theorem frameOfParts_getMsbD (b : DataBits) (p : Bool) (j : Nat) (hj : j < 8) :
    (frameOfParts b p).getMsbD j = b.getMsbD j := by
  interval_cases j <;> simp [frameOfParts, place_getElem, BitVec.getMsbD_eq_getLsbD]

/-- Data bit `j` of generated frame `i` is draw `8*i + j` (43_generate R136). -/
theorem generatedData_getMsbD (draw : Nat → Bool) (i j : Nat) (hj : j < 8) :
    (generatedData draw i).getMsbD j = draw (8 * i + j) := by
  rw [generatedData, ofBits_getMsbD _ (by simp)]
  simp [hj]

/-- Only the first `8*n` draws matter to `n` frames (43_generate R136). -/
theorem generate_congr (conv : Convention) {n : Nat} {d e : Nat → Bool} (h : ∀ k, k < 8 * n → d k = e k) :
    generate conv n d = generate conv n e := by
  refine List.map_congr_left fun i hi => ?_
  have hi := List.mem_range.1 hi
  have hd : (List.range 8).map (fun j => d (8 * i + j)) = (List.range 8).map fun j => e (8 * i + j) :=
    List.map_congr_left fun j hj => h _ (by have := List.mem_range.1 hj; omega)
  simp only [generatedFrame, generatedData, hd]

@[simp] theorem generate_length (conv : Convention) (n : Nat) (draw : Nat → Bool) :
    (generate conv n draw).length = n := by
  simp [generate]

/-! ### The `CorrectionSet` -/

/-- Which indices are in the `CorrectionSet` (45_correct R160). -/
theorem mem_correctionSet (conv : Convention) (fs : List Frame) (i : Nat) :
    i ∈ correctionSet conv fs ↔ ∃ f, fs[i]? = some f ∧ changedBit conv f = true := by
  simp only [correctionSet, List.mem_map, List.mem_filter, List.mem_zipIdx_iff_getElem?]
  constructor
  · rintro ⟨⟨f, k⟩, ⟨h1, h2⟩, rfl⟩
    exact ⟨f, h1, h2⟩
  · rintro ⟨f, h1, h2⟩
    exact ⟨(f, i), ⟨h1, h2⟩, rfl⟩

/-- The size of the `CorrectionSet` is the number of changed frames. -/
theorem correctionSet_length (conv : Convention) (fs : List Frame) :
    (correctionSet conv fs).length = fs.countP (changedBit conv) := by
  have h : (fs.zipIdx.map Prod.fst).countP (changedBit conv) = fs.countP (changedBit conv) := by
    rw [List.zipIdx_map_fst]
  rw [← h, List.countP_map, correctionSet, List.length_map, List.countP_eq_length_filter]
  rfl

/-- The `CFRAME` items, frame by frame: membership in the `CorrectionSet` is the frame's own `changed` bit. -/
theorem correctionItems_eq (conv : Convention) (fs : List Frame) :
    correctionItems conv fs =
      fs.map fun f => Item.cframe (cframeWord (changedBit conv f) (correctFrame conv f)) := by
  apply List.ext_getElem?
  intro i
  simp only [correctionItems, correctFrames, List.getElem?_map, List.getElem?_zipIdx]
  cases h : fs[i]? with
  | none => simp
  | some f =>
    have : (correctionSet conv fs).contains i = changedBit conv f := by
      rw [Bool.eq_iff_iff, List.contains_iff_mem, mem_correctionSet]
      simp [h]
    simp [← this]

end Sys2Proof.Machine
end

