-- ==== Sys2Proof/Laws/Parse.lean ====
section
/-! SUPPORT. The tokens of a text, and the loop of `parse` over them. -/

namespace Sys2Proof.Machine

theorem isWs_iff (cfg : Config) (c : CharCode) : isWs cfg c = true ↔ c ∈ cfg.ws := by
  simp [isWs]

theorem isWs_eq_false_iff (cfg : Config) (c : CharCode) : isWs cfg c = false ↔ c ∉ cfg.ws := by
  simp [isWs]

/-- The bit-validator decides validity (40_parse R92). -/
theorem validToken_iff (t : Token) : validToken t = true ↔ IsValidToken t := by
  simp [validToken, IsValidToken, isBin]

/-! ### Tokens -/

/-- Whitespace in front of a text changes no token. -/
theorem tokens_cons_ws (cfg : Config) (w : CharCode) (text : List CharCode) (h : w ∈ cfg.ws) :
    tokens cfg (w :: text) = tokens cfg text := by
  rw [tokens, if_pos ((isWs_iff cfg w).2 h)]

/-- Another character begins or continues the first token. -/
theorem tokens_cons_char (cfg : Config) (c : CharCode) (text : List CharCode) (h : c ∉ cfg.ws) :
    tokens cfg (c :: text) =
      if startsToken cfg text then consFirst c (tokens cfg text) else [c] :: tokens cfg text := by
  rw [tokens, if_neg (fun h' => h ((isWs_iff cfg c).1 h'))]

/-- A run of non-whitespace characters and then whitespace: the run is the first token. -/
theorem tokens_append_ws (cfg : Config) (t : Token) (w : CharCode) (rest : List CharCode) (hne : t ≠ [])
    (ht : ∀ c ∈ t, c ∉ cfg.ws) (hw : w ∈ cfg.ws) : tokens cfg (t ++ w :: rest) = t :: tokens cfg rest := by
  induction t with
  | nil => contradiction
  | cons c t ih =>
    rw [List.cons_append, tokens_cons_char cfg c _ (ht c (by simp))]
    cases t with
    | nil => simp [startsToken, (isWs_iff cfg w).2 hw, tokens_cons_ws cfg w rest hw]
    | cons d t =>
      have hd : isWs cfg d = false := (isWs_eq_false_iff cfg d).2 (ht d (by simp))
      rw [ih (by simp) fun x hx => ht x (by simp [hx])]
      simp [startsToken, hd, consFirst]

/-- A text that is one run of non-whitespace characters is one token. -/
theorem tokens_of_run (cfg : Config) (t : Token) (hne : t ≠ []) (ht : ∀ c ∈ t, c ∉ cfg.ws) : tokens cfg t = [t] := by
  induction t with
  | nil => contradiction
  | cons c t ih =>
    rw [tokens_cons_char cfg c _ (ht c (by simp))]
    cases t with
    | nil => simp [startsToken, tokens]
    | cons d t =>
      have hd : isWs cfg d = false := (isWs_eq_false_iff cfg d).2 (ht d (by simp))
      rw [ih (by simp) fun x hx => ht x (by simp [hx])]
      simp [startsToken, hd, consFirst]

/-- The tokens together have at most as many characters as the text, and none is empty. -/
theorem tokens_size (cfg : Config) (text : List CharCode) :
    ((tokens cfg text).map List.length).sum ≤ text.length ∧ ∀ t ∈ tokens cfg text, t ≠ [] := by
  induction text with
  | nil => simp [tokens]
  | cons c text ih =>
    obtain ⟨h1, h2⟩ := ih
    by_cases hc : c ∈ cfg.ws
    · rw [tokens_cons_ws cfg c text hc]
      exact ⟨by simp only [List.length_cons]; omega, h2⟩
    · rw [tokens_cons_char cfg c text hc]
      split
      · cases h3 : tokens cfg text with
        | nil => simp [consFirst]
        | cons t ts =>
          rw [h3] at h1 h2
          refine ⟨?_, ?_⟩
          · simp only [consFirst, List.map_cons, List.length_cons, List.sum_cons] at h1 ⊢
            omega
          · intro x hx
            simp only [consFirst, List.mem_cons] at hx
            rcases hx with rfl | hx
            · simp
            · exact h2 x (by simp [hx])
      · refine ⟨?_, ?_⟩
        · simp only [List.map_cons, List.length_cons, List.length_nil, List.sum_cons]
          omega
        · intro x hx
          rcases List.mem_cons.1 hx with rfl | hx
          · simp
          · exact h2 x hx

/-- There are at most as many tokens as characters. -/
theorem tokens_length_le (cfg : Config) (text : List CharCode) : (tokens cfg text).length ≤ text.length := by
  obtain ⟨h1, h2⟩ := tokens_size cfg text
  refine le_trans ?_ h1
  generalize tokens cfg text = ts at h2
  induction ts with
  | nil => simp
  | cons t ts ih =>
    have := ih fun x hx => h2 x (by simp [hx])
    have := List.length_pos_iff.2 (h2 t (by simp))
    simp only [List.length_cons, List.map_cons, List.sum_cons]
    omega

/-- A token is at most as long as the text. -/
theorem token_length_le (cfg : Config) (text : List CharCode) {t : Token} (h : t ∈ tokens cfg text) :
    t.length ≤ text.length :=
  le_trans (List.le_sum_of_mem (List.mem_map_of_mem h)) (tokens_size cfg text).1

/-! ### The loop over the tokens -/

/-- Valid tokens give their frames. -/
theorem parseTokens_of_valid (ts : List Token) (h : ∀ t ∈ ts, IsValidToken t) :
    parseTokens ts = .ok (ts.map frameOf) := by
  induction ts with
  | nil => rfl
  | cons t ts ih =>
    rw [parseTokens, if_pos ((validToken_iff t).2 (h t (by simp))), ih fun x hx => h x (by simp [hx])]
    rfl

/-- An invalid token behind valid ones is the one reported (40_parse R95). -/
theorem parseTokens_of_invalid (before after : List Token) (bad : Token) (h : ∀ t ∈ before, IsValidToken t)
    (hb : ¬ IsValidToken bad) : parseTokens (before ++ bad :: after) = .error (.malformedFrame bad) := by
  induction before with
  | nil =>
    have : ¬ validToken bad = true := fun h' => hb ((validToken_iff bad).1 h')
    simp [parseTokens, this]
  | cons t ts ih =>
    rw [List.cons_append, parseTokens, if_pos ((validToken_iff t).2 (h t (by simp))),
      ih fun x hx => h x (by simp [hx])]

/-- The frame of a valid token, bit by bit (40_parse R92). -/
theorem frameOf_isFrameOf (t : Token) (h : IsValidToken t) : IsFrameOf t (frameOf t) := by
  intro p hp
  have h1 : p < t.length := by rw [h.1]; exact hp
  rw [frameOf, ofBits_getMsbD _ (by simpa using h.1)]
  simp only [List.getElem?_map, List.getElem?_eq_getElem h1, Option.map_some, Option.getD_some, Option.some.injEq]
  rcases h.2 t[p] (List.getElem_mem h1) with h2 | h2 <;> rw [h2] <;> decide

/-! ### Rendered frames -/

/-- A rendered frame is a valid token (20_memory R55). -/
theorem renderFrame_isValidToken (f : Frame) : IsValidToken (renderFrame f) := by
  refine ⟨by simp [renderFrame], fun c hc => ?_⟩
  obtain ⟨b, _, rfl⟩ := List.mem_map.1 hc
  cases b <;> simp [digitOf]

/-- The frame of a rendered frame is that frame. -/
theorem frameOf_renderFrame (f : Frame) : frameOf (renderFrame f) = f := by
  have h : bitOf ∘ digitOf = id := by funext b; cases b <;> decide
  rw [frameOf, renderFrame, List.map_map, h, List.map_id, ofBits_bits]

end Sys2Proof.Machine
end

