-- ==== Sys2Proof/Laws/PerInstr.lean ====
section
/-! SUPPORT. Statements for all instructions, one lemma per constructor. -/

namespace Sys2Proof.Laws

/-- The family of the request word's fixed fields: `op` is the operation's code, `conv` is its convention, and the
reserved field of its format is zero (30_encoding R65 to R68). -/
def WordFields.Statement (i : Instr) : Prop :=
  (encode i).extractLsb' 29 3 = i.opcode ∧ i.opcode.toNat < 6 ∧ (encode i).getLsbD 28 = i.conv.bit ∧
    match i with
    | .parse _ _ => (encode i).extractLsb' 16 12 = 0#12
    | .par _ _ => (encode i).extractLsb' 8 20 = 0#20
    | .check _ _ => (encode i).extractLsb' 16 12 = 0#12
    | .gen _ _ => (encode i).extractLsb' 16 12 = 0#12
    | .inj _ _ => (encode i).extractLsb' 16 12 = 0#12
    | .corr _ _ => (encode i).extractLsb' 16 12 = 0#12

/-- Format N: the placed count leaves the reserved field zero. -/
theorem formatN_reserved (op : BitVec 3) (c : BitVec 1) (n : Nat) :
    (place 32 29 op ||| place 32 28 c ||| place 32 0 (BitVec.ofNat 16 n)).extractLsb' 16 12 = 0#12 := by
  apply BitVec.eq_of_getLsbD_eq
  intro j hj
  interval_cases j <;> simp [place_getElem]

/-- Format D: the placed data bits leave the reserved field zero. -/
theorem formatD_reserved (op : BitVec 3) (c : BitVec 1) (d : DataBits) :
    (place 32 29 op ||| place 32 28 c ||| place 32 0 d).extractLsb' 8 20 = 0#20 := by
  apply BitVec.eq_of_getLsbD_eq
  intro j hj
  interval_cases j <;> simp [place_getElem]

theorem WordFields.parse (c : Convention) (n : Nat) : WordFields.Statement (.parse c n) :=
  ⟨encode_opField _, by simp [Instr.opcode], encode_convField _, formatN_reserved _ _ n⟩

theorem WordFields.par (c : Convention) (d : DataBits) : WordFields.Statement (.par c d) :=
  ⟨encode_opField _, by simp [Instr.opcode], encode_convField _, formatD_reserved _ _ d⟩

theorem WordFields.check (c : Convention) (n : Nat) : WordFields.Statement (.check c n) :=
  ⟨encode_opField _, by simp [Instr.opcode], encode_convField _, formatN_reserved _ _ n⟩

theorem WordFields.gen (c : Convention) (n : Nat) : WordFields.Statement (.gen c n) :=
  ⟨encode_opField _, by simp [Instr.opcode], encode_convField _, formatN_reserved _ _ n⟩

theorem WordFields.inj (c : Convention) (n : Nat) : WordFields.Statement (.inj c n) :=
  ⟨encode_opField _, by simp [Instr.opcode], encode_convField _, formatN_reserved _ _ n⟩

theorem WordFields.corr (c : Convention) (n : Nat) : WordFields.Statement (.corr c n) :=
  ⟨encode_opField _, by simp [Instr.opcode], encode_convField _, formatN_reserved _ _ n⟩

end Sys2Proof.Laws
end

