-- ==== Sys2Proof/Tests/Slice0.lean ====
section
/-! SUPPORT. Tests of one step each, with the expected values of spec/95_test_vectors.md, and a witness for the
hypotheses of every statement that has some. -/

namespace Sys2Proof.Tests

open Sys2Proof.Machine

/-- The machine after reset with the caller's requests and the randomness source's answers. -/
def ready (program : List Request) (answers : List Nat) : State :=
  { State.reset with callerProgram := program, draws := answers }

/-- The response a step delivered last. -/
def answerOf (o : Host.Outcome State Fault Refusal) : Option Response :=
  match o with
  | .next t => t.received.getLast?
  | .fault _ => none
  | .refused _ => none

/-- The response to one request. -/
def answer (word : Word) (payload : List Item) (answers : List Nat := []) : Option Response :=
  answerOf (step (ready [{ word := word, payload := payload }] answers))

/-- `FRAME` items. -/
def fr (fs : List Frame) : List Item := fs.map .frame

/-- `CHAR` items. -/
def ch (cs : List CharCode) : List Item := cs.map .char

/-- The nine characters of `101100100`. -/
def text9 : List CharCode := [0x31#8, 0x30#8, 0x31#8, 0x31#8, 0x30#8, 0x30#8, 0x31#8, 0x30#8, 0x30#8]

/-- The machine in the middle of a request with this payload. -/
def serving (p : List Item) : State := { State.reset with payload := p }

/-! ### Well-formedness refuses a count that does not fit its field (30_encoding R65); format D has no count -/

theorem test_wf_parse_refuses : ¬ (Instr.parse .even 65536).WellFormed := by decide
theorem test_wf_check_refuses : ¬ (Instr.check .even 65536).WellFormed := by decide
theorem test_wf_gen_refuses : ¬ (Instr.gen .odd 65536).WellFormed := by decide
theorem test_wf_inj_refuses : ¬ (Instr.inj .even 65536).WellFormed := by decide
theorem test_wf_corr_refuses : ¬ (Instr.corr .odd 65536).WellFormed := by decide
theorem test_wf_config_refuses : ¬ (Config.WellFormed { ws := [0x20#8, 0x30#8] }) ∧
    ¬ (Config.WellFormed { ws := [0x31#8] }) ∧ Config.default.WellFormed := by decide

/-! ### Decoding: words written out field by field from 30_encoding R65 to R67 -/

/-- op 000, conv 0, rsv 0, n = 29. -/
theorem test_decode_parse : decode 0b000_0_000000000000_0000000000011101#32 = .ok (.parse .even 29) := by decide
/-- op 001, conv 1, rsv 0, d = 10110010. -/
theorem test_decode_par : decode 0b001_1_00000000000000000000_10110010#32 = .ok (.par .odd 0xB2#8) := by decide
/-- op 010, conv 1, rsv 0, n = 3. -/
theorem test_decode_check : decode 0b010_1_000000000000_0000000000000011#32 = .ok (.check .odd 3) := by decide
/-- op 011, conv 0, rsv 0, n = 65535. -/
theorem test_decode_gen : decode 0b011_0_000000000000_1111111111111111#32 = .ok (.gen .even 65535) := by decide
/-- op 100, conv 1, rsv 0, n = 1. -/
theorem test_decode_inj : decode 0b100_1_000000000000_0000000000000001#32 = .ok (.inj .odd 1) := by decide
/-- op 101, conv 0, rsv 0, n = 32768. -/
theorem test_decode_corr : decode 0b101_0_000000000000_1000000000000000#32 = .ok (.corr .even 32768) := by decide
/-- Reserved `op` codes and single reserved bits at both ends of each `rsv` field. -/
theorem test_decode_rejects :
    decode 0xC0000000#32 = .error .reservedOp ∧ decode 0xE0000005#32 = .error .reservedOp ∧
    decode 0x40010001#32 = .error .reservedBits ∧ decode 0x48000001#32 = .error .reservedBits ∧
    decode 0x20000100#32 = .error .reservedBits ∧ decode 0x28000000#32 = .error .reservedBits := by decide
theorem test_encode_words : encode (.par .even 0xB2#8) = 0x200000B2#32 ∧ encode (.corr .odd 3) = 0xB0000003#32 := by
  decide
theorem test_table_word : decodeTableWord 32 0xA0000003 = some (.corr .even 3) ∧ decodeTableWord 32 0xC0000000 = none := by
  decide

/-! ### PAR (95 section 2.1) -/

theorem test_par_even : answer 0x200000B2#32 [] = some { word := 0x20000000#32, payload := [] } := by decide
theorem test_par_odd : answer 0x3000007F#32 [] = some { word := 0x30000000#32, payload := [] } ∧
    answer 0x300000FF#32 [] = some { word := 0x30000001#32, payload := [] } := by decide

/-! ### PARSE (95 section 2.2) -/

/-- A run of separators, tab and line feed among them, and both ends trimmed: two frames. -/
theorem test_parse_frames :
    answer 0x00000017#32 (ch [0x20#8, 0x31#8, 0x30#8, 0x31#8, 0x31#8, 0x30#8, 0x30#8, 0x31#8, 0x30#8, 0x30#8, 0x09#8,
      0x0A#8, 0x30#8, 0x31#8, 0x31#8, 0x30#8, 0x31#8, 0x30#8, 0x30#8, 0x31#8, 0x31#8, 0x20#8, 0x20#8]) =
      some { word := 0x00000002#32, payload := fr [0x164#9, 0x0D3#9] } := by decide
/-- `101100100 abc 1010`: the leftmost invalid token, and no frame. -/
theorem test_parse_leftmost_invalid :
    answer 0x00000012#32 (ch [0x31#8, 0x30#8, 0x31#8, 0x31#8, 0x30#8, 0x30#8, 0x31#8, 0x30#8, 0x30#8, 0x20#8, 0x61#8,
      0x62#8, 0x63#8, 0x20#8, 0x31#8, 0x30#8, 0x31#8, 0x30#8]) =
      some { word := 0x02000003#32, payload := ch [0x61#8, 0x62#8, 0x63#8] } := by decide
/-- The empty text, `conv` echoed; a text of spaces. -/
theorem test_parse_empty : answer 0x10000000#32 [] = some { word := 0x11000000#32, payload := [] } ∧
    answer 0x00000003#32 (ch [0x20#8, 0x20#8, 0x20#8]) = some { word := 0x01000000#32, payload := [] } := by decide
/-- The reference parser on `101100100 1010` (40_parse R103). -/
theorem test_serial_parser :
    serialParse Config.default [0x31#8, 0x30#8, 0x31#8, 0x31#8, 0x30#8, 0x30#8, 0x31#8, 0x30#8, 0x30#8, 0x20#8, 0x31#8,
      0x30#8, 0x31#8, 0x30#8] = .error (.malformedFrame [0x31#8, 0x30#8, 0x31#8, 0x30#8]) := by decide

/-! ### CHECK (95 section 2.3) -/

theorem test_check_even : answer 0x40000003#32 (fr [0x090#9, 0x0D3#9, 0x0CA#9]) =
    some { word := 0x40000001#32, payload := [.chk 0x4802#16, .chk 0x69A4#16, .chk 0x6504#16] } := by decide
theorem test_check_odd : answer 0x50000003#32 (fr [0x090#9, 0x0D3#9, 0x1FF#9]) =
    some { word := 0x50000001#32, payload := [.chk 0x4872#16, .chk 0x69D4#16, .chk 0xFFD8#16] } := by decide

/-! ### GEN (95 section 2.4) -/

theorem test_gen_odd : answer 0x70000003#32 []
    [0, 1, 0, 0, 1, 0, 0, 0, 0, 1, 1, 0, 1, 0, 0, 1, 1, 1, 1, 1, 1, 1, 1, 1] =
    some { word := 0x70000003#32, payload := fr [0x091#9, 0x0D3#9, 0x1FF#9] } := by decide
theorem test_gen_zero_refused : answer 0x60000000#32 [] = some { word := 0x64000000#32, payload := [] } := by decide

/-! ### INJ (95 section 2.5, 2.8) -/

theorem test_inj_frame : answer 0x80000003#32 (fr [0x090#9, 0x0D3#9, 0x0CA#9]) [2, 3] =
    some { word := 0x80000003#32, payload := fr [0x090#9, 0x0D3#9, 0x0EA#9] ++ [.mutation 0x00020003#32] } := by decide
/-- The parity bit; `conv` ignored and echoed; no frames. -/
theorem test_inj_parity_and_empty :
    answer 0x90000001#32 (fr [0x164#9]) [0, 8] =
      some { word := 0x90000001#32, payload := fr [0x165#9] ++ [.mutation 0x00000008#32] } ∧
    answer 0x80000000#32 [] = some { word := 0x83000000#32, payload := [] } := by decide

/-! ### CORR (95 section 2.6) -/

theorem test_corr_even : answer 0xA0000003#32 (fr [0x090#9, 0x0D3#9, 0x0CA#9]) =
    some { word := 0xA0000001#32, payload := [.cframe 0x090#10, .cframe 0x2D2#10, .cframe 0x0CA#10] } := by decide
theorem test_corr_odd : answer 0xB0000003#32 (fr [0x090#9, 0x0D3#9, 0x0CA#9]) =
    some { word := 0xB0000002#32, payload := [.cframe 0x291#10, .cframe 0x0D3#10, .cframe 0x2CB#10] } := by decide

/-! ### The decoder (95 section 2.8) -/

theorem test_refuse_words : answer 0xC0000000#32 [] = some { word := 0xC4000000#32, payload := [] } ∧
    answer 0xE0000005#32 [] = some { word := 0xE4000000#32, payload := [] } ∧
    answer 0x40010001#32 (fr [0x164#9]) = some { word := 0x44000000#32, payload := [] } := by decide
theorem test_refuse_payloads : answer 0x40000002#32 (fr [0x164#9]) = some { word := 0x44000000#32, payload := [] } ∧
    answer 0x60000003#32 (fr [0x164#9]) = some { word := 0x64000000#32, payload := [] } ∧
    answer 0x00000005#32 (ch [0x31#8, 0x30#8, 0x31#8, 0x30#8]) = some { word := 0x04000000#32, payload := [] } := by
  decide
/-- The first step after reset serves the request placed for it. -/
theorem test_first_step_after_reset :
    answerOf (step (State.reset.withFetchWord 32 0xB0000002)) =
      some { word := 0xB0000002#32, payload := [.cframe 0x201#10, .cframe 0x201#10] } := by decide
/-- The count of `OK(nfr, buf)` comes from the reference parser's register (40_parse R102). -/
theorem test_serial_response :
    (runSerialParse (.parse .odd 9) (serving (ch text9))).received =
      [{ word := 0x10000001#32, payload := fr [0x164#9] }] := by decide
/-- A machine whose `CNT_W` is 2 refuses a count of 4 and serves a count of 3 (10_state R36, log 9). -/
theorem test_cntW :
    let s := fun w : Word => { ready [{ word := w, payload := [] }] (List.replicate 24 1) with
      config := { Config.default with cntW := 2 } }
    answerOf (step (s 0x60000004#32)) = some { word := 0x64000000#32, payload := [] } ∧
    answerOf (step (s 0x60000003#32)) = some { word := 0x60000003#32, payload := fr [0x1FE#9, 0x1FE#9, 0x1FE#9] } := by
  decide
/-- The caller's text form of two frames (20_memory R55). -/
theorem test_render : render [0x164#9, 0x0D3#9] = [0x31#8, 0x30#8, 0x31#8, 0x31#8, 0x30#8, 0x30#8, 0x31#8, 0x30#8,
    0x30#8, 0x20#8, 0x30#8, 0x31#8, 0x31#8, 0x30#8, 0x31#8, 0x30#8, 0x30#8, 0x31#8, 0x31#8] := by decide

/-! ### Witnesses: states and operands that meet the hypotheses of each statement -/

theorem witness_DecodeAfterEncodeIsIdentity :
    (Instr.gen .odd 65535).WellFormed ∧ (Instr.parse .odd 0).WellFormed ∧ (Instr.par .odd 0xFF#8).WellFormed ∧
    (Instr.check .even 65535).WellFormed ∧ (Instr.inj .odd 65535).WellFormed ∧ (Instr.corr .odd 65535).WellFormed := by
  decide
theorem witness_EncodeAfterDecodeIsIdentity : decode 0x7000FFFF#32 = .ok (.gen .odd 65535) := by decide
theorem witness_UnmatchedWordRefused :
    0xC0000000#32 &&& 0xEFFF0000#32 ∉ [0x00000000#32, 0x40000000#32, 0x60000000#32, 0x80000000#32, 0xA0000000#32] ∧
    0xC0000000#32 &&& 0xEFFFFF00#32 ≠ 0x20000000#32 ∧
    (ready [{ word := 0xC0000000#32, payload := fr [0#9] }] []).callerProgram =
      { word := 0xC0000000#32, payload := fr [0#9] } :: [] := by decide
theorem witness_StepRunsDecodedOperation :
    (ready [{ word := 0x60000001#32, payload := [] }] []).callerProgram = [{ word := 0x60000001#32, payload := [] }] ∧
    decode 0x60000001#32 = .ok (.gen .even 1) := by decide
theorem witness_IdleStepChangesNothing : State.reset.callerProgram = [] := rfl
/-- One request for each item of R77, at the boundary of its range. -/
theorem witness_IllegalRequestRefused :
    Request.IllegalByR77 { word := 0xC0000000#32, payload := [] } ∧
    Request.IllegalByR77 { word := 0x20000100#32, payload := [] } ∧
    Request.IllegalByR77 { word := 0x08000000#32, payload := [] } ∧
    Request.IllegalByR77 { word := 0x20000000#32, payload := [.frame 0#9] } ∧
    Request.IllegalByR77 { word := 0x80000000#32, payload := [.frame 0#9] } ∧
    Request.IllegalByR77 { word := 0xA0000000#32, payload := [] } := by
  simp [Request.IllegalByR77]
/-- Legal requests at the boundary of R77: `PARSE` and `INJ` with `n` = 0, the others with the least count. -/
theorem witness_LegalRequestReachesOperation :
    ¬ Request.IllegalByR77 { word := 0x00000000#32, payload := [] } ∧
    ¬ Request.IllegalByR77 { word := 0x90000000#32, payload := [] } ∧
    ¬ Request.IllegalByR77 { word := 0x300000FF#32, payload := [] } ∧
    ¬ Request.IllegalByR77 { word := 0x7000FFFF#32, payload := [] } ∧
    ¬ Request.IllegalByR77 { word := 0x40000001#32, payload := [.frame 0#9] } ∧
    Request.ItemsAsR64 { word := 0x40000001#32, payload := [.frame 0#9] } ∧
    Request.ItemsAsR64 { word := 0x00000000#32, payload := [] } ∧
    Request.CountFits Config.default { word := 0x7000FFFF#32, payload := [] } := by
  simp [Request.IllegalByR77, Request.ItemsAsR64, Request.CountFits, Item.isFrame, Config.maxItems, Config.default]
/-- A machine whose `CNT_W` is 4: 15 frames fit, 16 do not, and `PAR` has no count. -/
theorem witness_CountOverLimitRefused :
    let cfg : Config := { Config.default with cntW := 4 }
    Request.CountFits cfg { word := 0x6000000F#32, payload := [] } ∧
    ¬ Request.CountFits cfg { word := 0x60000010#32, payload := [] } ∧
    Request.CountFits cfg { word := 0x200000FF#32, payload := [] } := by decide
theorem witness_WrongItemTypeRefused :
    ¬ Request.ItemsAsR64 { word := 0x40000001#32, payload := [.char 0#8] } ∧
    ¬ Request.ItemsAsR64 { word := 0x00000001#32, payload := [.frame 0#9] } := by
  simp [Request.ItemsAsR64, Item.isFrame, Item.isChar]
theorem witness_StatusesOfEachOperation :
    ∃ t a, exec (.inj .even 0) State.reset = .next t ∧ t.received = State.reset.received ++ [a] := ⟨_, _, rfl, rfl⟩
/-- Three pairs of states with different answers and different numbers of draws made: a request without draws, one whose
draws agree as bits, and a word that selects no operation. -/
theorem witness_ResponseDependsOnRequestAndDraws :
    let par : Request := { word := 0x200000B2#32, payload := [] }
    let gen : Request := { word := 0x60000001#32, payload := [] }
    let none : Request := { word := 0xC0000000#32, payload := [] }
    let before := fun r : Request => ready [r] [1, 0, 0, 0, 0, 0, 0, 0, 7]
    let after := fun r : Request => { ready [r, r] [3, 2, 0, 0, 0, 0, 0, 0, 5] with
      drawCount := 8, received := [{ word := 0x60000001#32, payload := fr [0#9] }], payload := fr [0#9] }
    (before par).config = (after par).config ∧ (before par).callerProgram = par :: [] ∧
    (after par).callerProgram = par :: [par] ∧ par.drawn (before par) = par.drawn (after par) ∧
    gen.drawn (before gen) = gen.drawn (after gen) ∧ none.drawn (before none) = none.drawn (after none) := by decide
/-- The draws of requests as 60_exceptions R186 lists them: eight bits, two indices, and none where `INJ` fails. -/
theorem test_drawn :
    Request.drawn { word := 0x60000001#32, payload := [] } (ready [] [1, 0, 0, 1, 0, 0, 0, 3]) = [1, 0, 0, 1, 0, 0, 0, 1] ∧
    Request.drawn { word := 0x80000003#32, payload := fr [0#9, 0#9, 0#9] } (ready [] [5, 12]) = [2, 3] ∧
    Request.drawn { word := 0x80000000#32, payload := [] } (ready [] [5, 12]) = [] := by decide
theorem witness_ConventionIgnoredByParseAndInject :
    (Instr.parse = Instr.parse ∨ Instr.parse = Instr.inj) ∧ (Instr.inj = Instr.parse ∨ Instr.inj = Instr.inj) :=
  ⟨.inl rfl, .inr rfl⟩
/-- The invariant at a state with a response delivered and a request to come, and a step from it. -/
theorem witness_StepKeepsInvariant :
    let s : State := { ready [{ word := 0x200000B2#32, payload := [] }] [] with
      received := [{ word := 0x30000001#32, payload := [] }] }
    s.Inv ∧ ∃ t, step s = .next t := by
  refine ⟨⟨by decide, rfl, ?_⟩, _, rfl⟩
  simp [Response.WellFormed, Response.statusCode, Response.op, Response.m]
theorem witness_ResponseAfterResetIsTheSame :
    let r : Request := { word := 0x80000001#32, payload := fr [0#9] }
    let s : State := { ready [r, r] [5, 3, 1] with received := [{ word := 0x30000001#32, payload := [] }], drawCount := 8 }
    s.callerProgram = r :: [r] ∧ s.config = State.reset.config ∧
    r.drawn s = r.drawn { State.reset with callerProgram := [r], draws := [0, 3], drawCount := 0 } := by decide
theorem witness_ParReturnsParityBit : State.reset.payload = [] := rfl
theorem witness_ParseOfValidTextReturnsFrames :
    (serving (ch text9)).payload = text9.map .char ∧ text9.length ≤ (serving (ch text9)).config.maxItems ∧
    tokens (serving (ch text9)).config text9 ≠ [] ∧
    (∀ t ∈ tokens (serving (ch text9)).config text9, t.length = 9 ∧ ∀ c ∈ t, c = Config.ch0 ∨ c = Config.ch1) := by decide
theorem witness_ParseOfBlankTextFailsEmptyInput :
    (serving (ch [0x20#8, 0x09#8])).payload = [0x20#8, 0x09#8].map .char ∧
    [0x20#8, 0x09#8].length ≤ (serving (ch [0x20#8, 0x09#8])).config.maxItems ∧
    (∀ c ∈ [0x20#8, 0x09#8], c ∈ (serving (ch [0x20#8, 0x09#8])).config.ws) := by decide
theorem witness_ParseReportsLeftmostInvalidToken :
    tokens Config.default (text9 ++ [0x20#8, 0x31#8]) = [text9] ++ [0x31#8] :: [] ∧
    (∀ t ∈ [text9], t.length = 9 ∧ ∀ c ∈ t, c = Config.ch0 ∨ c = Config.ch1) ∧ ¬ ([0x31#8].length = 9) := by decide
theorem witness_SerialParserComputesParse : text9.length ≤ Config.default.maxItems := by decide
theorem witness_SerialParserAnswersAsParse :
    (serving (ch text9)).payload = text9.map .char ∧ text9.length ≤ (serving (ch text9)).config.maxItems := by decide
/-- Texts that end in each of the three results of the registers. -/
theorem witness_SerialParserAnswersItsRegisters :
    let final := fun text => parserFinish (text.foldl (parserStep Config.default) (parserInit 16))
    (serving (ch text9)).payload = text9.map .char ∧ text9.length ≤ (serving (ch text9)).config.maxItems ∧
    (final text9).err = none ∧ (final text9).nfr = 1#16 ∧ (final [0x20#8]).nfr = 0#16 ∧
    (final [0x20#8, 0x61#8]).err = some (1#16, 1#16) := by decide
theorem witness_ParseOfRenderedFramesReturnsThem :
    [0x164#9] ≠ [] ∧ 0x20#8 ∈ Config.default.ws ∧ Config.ch0 ∉ Config.default.ws ∧ Config.ch1 ∉ Config.default.ws := by
  decide
theorem witness_CompositionIsParseThenOperation :
    text9.length ≤ Config.default.maxItems ∧ parse Config.default text9 = .ok [0x164#9] ∧
    parse Config.default [] = .error .emptyInput := by decide
/-- A set of frames and its payload: the hypotheses of the statements about `CHECK`, `INJ` and `CORR`. -/
theorem witness_CheckReportsEveryFrame :
    (serving (fr [0x164#9])).payload = [0x164#9].map .frame ∧ 1 ≤ [0x164#9].length ∧
    [0x164#9].length ≤ Config.default.maxItems := by decide
/-- The same hypotheses, at a set with a mismatch and one without. -/
theorem witness_CheckSucceedsIffNoFrameMismatches :
    (serving (fr [0x164#9, 0x165#9])).payload = [0x164#9, 0x165#9].map .frame ∧
    1 ≤ [0x164#9, 0x165#9].length ∧ [0x164#9, 0x165#9].length ≤ Config.default.maxItems ∧
    (checkFrame .even 0x164#9).mismatch = false ∧ (checkFrame .even 0x165#9).mismatch = true := by decide
theorem witness_InjectFlipsTheDrawnBit :
    (serving (fr [0#9, 0x1FF#9])).payload = [0#9, 0x1FF#9].map .frame ∧ 1 ≤ [0#9, 0x1FF#9].length ∧
    [0#9, 0x1FF#9].length ≤ Config.default.maxItems := by decide
theorem witness_InjectOfNoFramesFails : State.reset.payload = [] := rfl
/-- The last bit of the last frame, and another frame of the set. -/
theorem witness_InjectionComplementsOneVerdict :
    1 < [0#9, 1#9].length ∧ 8 < 9 ∧ [0#9, 1#9][1]? = some 1#9 ∧ [0#9, 1#9][0]? = some 0#9 := by decide
theorem witness_SameInjectionTwiceRestores : 1 < [0#9, 1#9].length ∧ 8 < 9 := by decide
theorem witness_CorrectRecomputesEveryParityBit :
    (serving (fr [0x091#9, 0x0D3#9])).payload = [0x091#9, 0x0D3#9].map .frame ∧ 1 ≤ [0x091#9, 0x0D3#9].length ∧
    [0x091#9, 0x0D3#9].length ≤ Config.default.maxItems := by decide
theorem witness_CorrectionDoesNotUndoDataErrors : (7 : Nat) < 8 ∧ (checkFrame .even 0x164#9).mismatch = false := by
  decide
theorem witness_GeneratedFramesCheckValid : State.reset.payload = [] ∧ 1 ≤ 1 ∧ 1 ≤ State.reset.config.maxItems := by
  decide
theorem witness_GeneratedFramesMismatchUnderOther :
    State.reset.payload = [] ∧ 1 ≤ 65535 ∧ 65535 ≤ State.reset.config.maxItems := by decide
theorem witness_CorrectedFramesCheckValid :
    (serving (fr [0x165#9])).payload = [0x165#9].map .frame ∧ 1 ≤ [0x165#9].length ∧
    [0x165#9].length ≤ (serving (fr [0x165#9])).config.maxItems := by decide
theorem witness_ResetBetweenOperationsIsIdentity :
    State.reset.Inv ∧ (ready [{ word := 0x200000B2#32, payload := [] }] []).callerProgram =
      { word := 0x200000B2#32, payload := [] } :: [] := by
  refine ⟨⟨by decide, rfl, ?_⟩, rfl⟩
  simp [State.reset]
theorem witness_OneFlipDetectedTwoFlipsMissed : (checkFrame .even 0x164#9).mismatch = false ∧ (0 : Nat) < 9 ∧ 8 < 9 := by
  decide
theorem witness_GenerateReturnsDrawnFrames : State.reset.payload = [] ∧ 1 ≤ 65535 ∧ 65535 ≤ Config.default.maxItems := by decide
theorem witness_EveryDataPatternIsGenerable :
    State.reset.payload = [] ∧ 1 ≤ [0xB2#8].length ∧ [0xB2#8].length ≤ Config.default.maxItems := by decide
theorem witness_InjectReachesEveryBit :
    (serving (fr [0#9, 1#9])).payload = [0#9, 1#9].map .frame ∧ 1 < [0#9, 1#9].length ∧ 8 < 9 ∧
    [0#9, 1#9].length ≤ Config.default.maxItems := by decide
theorem witness_DrawsRangeOverAllValues : (1 : Nat) ≤ 1 ∧ (8 : Nat) < 9 := by decide

end Sys2Proof.Tests
end

/-! ### The state after reset (70_reset R195) and the parity rule (41_parity R112, R117) -/

namespace Sys2Proof.Machine

/-- Settles O19: every conjunct reads one field of the reset state. -/
theorem resetStateIsIdle : Obligations.ResetStateIsIdle :=
  ⟨State.reset_payload, rfl, rfl, State.reset_callerProgram, State.reset_received, State.reset_draws⟩

/-- 41_parity R112: counting the ones is folding exclusive-or over the data bits, then over the convention bit. -/
theorem computeParityBit_eq_foldl_xor (b : DataBits) (conv : Convention) :
    computeParityBit b conv = ((bits b).foldl (· ^^ ·) false ^^ conv.bit) := by
  have hcount : (bits b).count true = ones b := rfl
  rw [foldl_xor_eq_count, hcount]
  rcases Nat.mod_two_eq_zero_or_one (ones b) with h | h <;> cases conv <;> simp [computeParityBit, Convention.bit, h]

/-- 41_parity R112: the exclusive-or form, bit by bit. -/
theorem computeParityBit_eq_xor (b : DataBits) (conv : Convention) :
    computeParityBit b conv = (b.getMsbD 0 ^^ b.getMsbD 1 ^^ b.getMsbD 2 ^^ b.getMsbD 3 ^^ b.getMsbD 4 ^^ b.getMsbD 5 ^^
      b.getMsbD 6 ^^ b.getMsbD 7 ^^ conv.bit) := by
  have hbits : bits b = [b.getMsbD 0, b.getMsbD 1, b.getMsbD 2, b.getMsbD 3, b.getMsbD 4, b.getMsbD 5, b.getMsbD 6,
      b.getMsbD 7] := rfl
  rw [computeParityBit_eq_foldl_xor, hbits]
  simp only [List.foldl_cons, List.foldl_nil, Bool.false_xor]

/-- 41_parity R117: the tree is the exclusive-or form, associated in pairs. -/
theorem parityTree_eq_computeParityBit (b : DataBits) (conv : Convention) :
    parityTree b conv = computeParityBit b conv := by
  rw [computeParityBit_eq_xor]
  simp only [parityTree, dataBit, Bool.xor_assoc]

/-- Settles O24: the exclusive-or form is the count modulo 2, and the tree is that form by associativity. -/
theorem parityEqualsXorFormAndTree : Obligations.ParityEqualsXorFormAndTree := fun b conv =>
  ⟨computeParityBit_eq_xor b conv, parityTree_eq_computeParityBit b conv⟩

end Sys2Proof.Machine

/-! ### What a decoded word says of its fields (30_encoding R65 to R68) -/

namespace Sys2Proof

@[simp] theorem Convention.bit_ofBit (b : Bool) : (Convention.ofBit b).bit = b := by
  cases b <;> rfl

/-- The bit of a word's `conv` field is bit 28 (30_encoding R66). -/
@[simp] theorem convField_bit (w : Word) : (convField w).bit = w.getLsbD 28 :=
  Convention.bit_ofBit _

theorem decodeN_eq_ok_iff {mk : Convention → Nat → Instr} {w : Word} {i : Instr} :
    decodeN mk w = .ok i ↔ rsvFieldN w = 0#12 ∧ i = mk (convField w) (countField w) := by
  unfold decodeN
  split <;> simp_all [eq_comm]

theorem decodeD_eq_ok_iff {mk : Convention → DataBits → Instr} {w : Word} {i : Instr} :
    decodeD mk w = .ok i ↔ rsvFieldD w = 0#20 ∧ i = mk (convField w) (dataField w) := by
  unfold decodeD
  split <;> simp_all [eq_comm]

/-- All that a word can decode to: the row of its `op` field, with the reserved bits zero and the operands of its own
fields (30_encoding R67, R68). -/
theorem decode_cases {w : Word} {i : Instr} (h : decode w = .ok i) :
    ((opField w).toNat = 0 ∧ rsvFieldN w = 0#12 ∧ i = .parse (convField w) (countField w)) ∨
    ((opField w).toNat = 1 ∧ rsvFieldD w = 0#20 ∧ i = .par (convField w) (dataField w)) ∨
    ((opField w).toNat = 2 ∧ rsvFieldN w = 0#12 ∧ i = .check (convField w) (countField w)) ∨
    ((opField w).toNat = 3 ∧ rsvFieldN w = 0#12 ∧ i = .gen (convField w) (countField w)) ∨
    ((opField w).toNat = 4 ∧ rsvFieldN w = 0#12 ∧ i = .inj (convField w) (countField w)) ∨
    ((opField w).toNat = 5 ∧ rsvFieldN w = 0#12 ∧ i = .corr (convField w) (countField w)) := by
  unfold decode at h
  split at h
  case h_1 hop => exact .inl ⟨hop, decodeN_eq_ok_iff.1 h⟩
  case h_2 hop => exact .inr (.inl ⟨hop, decodeD_eq_ok_iff.1 h⟩)
  case h_3 hop => exact .inr (.inr (.inl ⟨hop, decodeN_eq_ok_iff.1 h⟩))
  case h_4 hop => exact .inr (.inr (.inr (.inl ⟨hop, decodeN_eq_ok_iff.1 h⟩)))
  case h_5 hop => exact .inr (.inr (.inr (.inr (.inl ⟨hop, decodeN_eq_ok_iff.1 h⟩))))
  case h_6 hop => exact .inr (.inr (.inr (.inr (.inr ⟨hop, decodeN_eq_ok_iff.1 h⟩))))
  case h_7 => exact nomatch h

/-- A decoded operation keeps the word's bits 31:28, and its count where the format has one. -/
theorem decode_fields {w : Word} {i : Instr} (h : decode w = .ok i) :
    i.opcode = opField w ∧ i.conv = convField w ∧ ((opField w).toNat ≠ 1 → Machine.countOf i = countField w) := by
  obtain ⟨hop, -, rfl⟩ | ⟨hop, -, rfl⟩ | ⟨hop, -, rfl⟩ | ⟨hop, -, rfl⟩ | ⟨hop, -, rfl⟩ | ⟨hop, -, rfl⟩ :=
    decode_cases h <;> exact ⟨BitVec.eq_of_toNat_eq hop.symm, rfl, by simp [Machine.countOf, hop]⟩

end Sys2Proof

/-! ### Refused requests (60_exceptions R174) -/

namespace Sys2Proof.Machine

/-- Executing an illegal operation refuses it, whichever it is. -/
theorem exec_of_illegal {i : Instr} {s : State} (h : illegal s.config i s.payload ≠ none) :
    exec i s = .next (s.refuse i.opcode i.conv) := by
  rw [exec_eq_serve, serve_of_illegal _ h]

/-- Executing a legal `PARSE` parses its payload. -/
theorem exec_parse_of_legal {conv : Convention} {n : Nat} {s : State}
    (h : illegal s.config (.parse conv n) s.payload = none) :
    exec (.parse conv n) s = .next (runParse (.parse conv n) s) := by
  rw [exec_eq_serve, serve_of_legal _ h]

/-- A request whose word selects no operation, or an illegal one, is refused with its own bits 31:28. -/
theorem step_of_illegal {s : State} {r : Request} {rest : List Request} (hr : s.callerProgram = r :: rest)
    (hill : ∀ i, decode r.word = .ok i → illegal s.config i r.payload ≠ none) :
    step s = .next ((s.take r rest).refuseWord r.word) := by
  obtain ⟨hnil, -⟩ | ⟨r', rest', i, hr', hdec, hstep⟩ | ⟨r', rest', e, hr', -, hstep⟩ := step_cases s
  · simp [hnil] at hr
  · obtain ⟨rfl, rfl⟩ := List.cons.inj (hr.symm.trans hr')
    obtain ⟨hop, hconv, -⟩ := decode_fields hdec
    rw [hstep, exec_of_illegal (hill i hdec), hop, hconv, State.refuseWord]
  · obtain ⟨rfl, rfl⟩ := List.cons.inj (hr.symm.trans hr')
    exact hstep

/-- The refusal of a word has the fields 60_exceptions R174 gives it. -/
theorem refusal_carries (w : Word) :
    ({ word := rspWord (opField w) (convField w) .illegalRequest 0, payload := [] } : Response).Carries
      (w.extractLsb' 29 3).toNat (w.getLsbD 28) 4 0 [] := by
  have h := rspWord_carries (opField w) (convField w) .illegalRequest 0 [] (by decide)
  rwa [convField_bit] at h

/-- A request that is illegal in any way is answered with `IllegalRequest` and nothing else happens. -/
theorem step_answers_refusal {s : State} {r : Request} {rest : List Request} (hr : s.callerProgram = r :: rest)
    (hill : ∀ i, decode r.word = .ok i → illegal s.config i r.payload ≠ none) :
    ∃ (t : State) (a : Response), step s = .next t ∧ Answered { s with callerProgram := rest } t a 0 ∧
      a.Carries (r.word.extractLsb' 29 3).toNat (r.word.getLsbD 28) 4 0 [] :=
  ⟨_, _, step_of_illegal hr hill, rfl, refusal_carries r.word⟩

/-- On the machine with the spec's `CNT_W` the count of every request fits (60_exceptions R188). -/
theorem countFits_of_cntW {cfg : Config} (hw : cfg.cntW = 16) (r : Request) : r.CountFits cfg := by
  have hmax : cfg.maxItems = 65535 := by simp [Config.maxItems, hw]
  have hlt : (r.word.extractLsb' 0 16).toNat < 2 ^ 16 := BitVec.isLt _
  intro _
  omega

/-- An operation decoded from a word whose count does not fit is illegal, whatever its payload (log 9). -/
theorem illegal_of_not_countFits {cfg : Config} {r : Request} {i : Instr} (hfit : ¬ r.CountFits cfg)
    (hdec : decode r.word = .ok i) : illegal cfg i r.payload ≠ none := by
  obtain ⟨-, -, hcount⟩ := decode_fields hdec
  obtain ⟨hop, hover⟩ := Classical.not_imp.1 hfit
  intro hlegal
  obtain ⟨hle, -⟩ := (illegal_eq_none_iff cfg i r.payload).1 hlegal
  exact hover ((hcount hop).symm.trans_le hle)

/-- Settles O12: a count is a 16-bit number, and one over the limit makes the decoded operation illegal. -/
theorem countOverLimitRefused : Obligations.CountOverLimitRefused :=
  ⟨fun _ r hw => countFits_of_cntW hw r, fun _ _ _ hr hfit =>
    step_answers_refusal hr fun _ hdec => illegal_of_not_countFits hfit hdec⟩

end Sys2Proof.Machine

/-! ### The reference parser's registers (40_parse R100, R101) -/

namespace Sys2Proof.Machine

/-- One more member at the end of a bit sequence is shifted into its word from the right. -/
theorem ofBits_concat {w : Nat} (l : List Bool) (b : Bool) :
    (ofBits (l ++ [b]) : BitVec w) = (ofBits l : BitVec w).shiftConcat b := by
  simp [ofBits]

section Registers

variable {cfg : Config} {w : Nat} {r : ParserRegs w} {pre cur : List CharCode} {frames : List Frame}
  {ch : CharCode}

/-- What the registers hold once `pre ++ cur` has been read without an error, where `cur` is the current token so far
and `frames` are the frames of the tokens of `pre` (the column "holds" of 40_parse R100).  `start` and `acc` say nothing
outside a token and in a bad token. -/
structure ParserRegs.Holds (cfg : Config) (r : ParserRegs w) (pre cur : List CharCode) (frames : List Frame) :
    Prop where
  pos : r.pos = BitVec.ofNat w (pre.length + cur.length)
  start : cur ≠ [] → r.start = BitVec.ofNat w pre.length
  len : r.len = BitVec.ofNat w cur.length
  acc : cur.all isBin = true → r.acc = ofBits (cur.map bitOf)
  bad : r.bad = !cur.all isBin
  nfr : r.nfr = BitVec.ofNat w frames.length
  buf : r.buf = frames
  err : r.err = none
  run : ∀ c ∈ cur, c ∉ cfg.ws
  frames_le : frames.length ≤ pre.length

/-- The registers start with nothing read. -/
theorem parserInit_holds (cfg : Config) (w : Nat) : (parserInit w).Holds cfg [] [] [] where
  pos := rfl
  start h := absurd rfl h
  len := rfl
  acc _ := rfl
  bad := rfl
  nfr := rfl
  buf := rfl
  err := rfl
  run := by simp
  frames_le := Nat.le_refl 0

/-- No overflow of `len` (40_parse R103). -/
theorem ParserRegs.Holds.len_toNat (h : r.Holds cfg pre cur frames) (hlt : cur.length < 2 ^ w) :
    r.len.toNat = cur.length := by
  rw [h.len, BitVec.toNat_ofNat, Nat.mod_eq_of_lt hlt]

/-- `len` = 0 means "between tokens" (40_parse R100). -/
theorem ParserRegs.Holds.len_eq_zero_iff (h : r.Holds cfg pre cur frames) (hlt : cur.length < 2 ^ w) :
    r.len = 0#w ↔ cur = [] := by
  rw [← BitVec.toNat_inj, h.len_toNat hlt, BitVec.toNat_zero, List.length_eq_zero_iff]

/-- A token is rejected at its end iff the bit-validator rejects it (40_parse R103). -/
theorem ParserRegs.Holds.rejects_eq (h : r.Holds cfg pre cur frames) (hlt : cur.length < 2 ^ w) :
    (r.bad || r.len.toNat != 9) = !validToken cur := by
  rw [h.bad, h.len_toNat hlt, validToken, Bool.not_and, Bool.or_comm]
  rfl

/-! ### The two shared actions and the step of the reference parser, an equation per case (40_parse R101, R102) -/

/-- A character that joins a token: what it does to each register. -/
theorem parserAddChar_eq (ch : CharCode) (r : ParserRegs w) :
    parserAddChar ch r = { r with
      start := if r.len = 0#w then r.pos else r.start
      acc := if isBin ch then r.acc.shiftConcat (bitOf ch) else r.acc
      bad := if isBin ch then r.bad else true
      len := r.len + 1#w } := by
  unfold parserAddChar
  split_ifs <;> rfl

/-- The end of an accepted token stores its frame. -/
theorem parserEndToken_of_accepted (h : (r.bad || r.len.toNat != 9) = false) :
    parserEndToken r = { r with
      buf := r.buf ++ [r.acc], nfr := r.nfr + 1#w, len := 0#w, bad := false, acc := 0#9 } := by
  simp [parserEndToken, h]

/-- The end of a rejected token latches its position and length. -/
theorem parserEndToken_err_of_rejected (h : (r.bad || r.len.toNat != 9) = true) :
    (parserEndToken r).err = some (r.start, r.len) := by
  simp [parserEndToken, h]

theorem parserStep_of_err (h : r.err ≠ none) : parserStep cfg r ch = { r with pos := r.pos + 1#w } := by
  simp [parserStep, h]

theorem parserStep_of_char (h : r.err = none) (hch : ch ∉ cfg.ws) :
    parserStep cfg r ch = { parserAddChar ch r with pos := (parserAddChar ch r).pos + 1#w } := by
  simp [parserStep, h, (isWs_eq_false_iff cfg ch).2 hch]

theorem parserStep_of_ws_between (h : r.err = none) (hch : ch ∈ cfg.ws) (hlen : r.len = 0#w) :
    parserStep cfg r ch = { r with pos := r.pos + 1#w } := by
  simp [parserStep, h, (isWs_iff cfg ch).2 hch, hlen]

theorem parserStep_of_ws_in_token (h : r.err = none) (hch : ch ∈ cfg.ws) (hlen : r.len ≠ 0#w) :
    parserStep cfg r ch = { parserEndToken r with pos := (parserEndToken r).pos + 1#w } := by
  simp [parserStep, h, (isWs_iff cfg ch).2 hch, hlen]

theorem parserFinish_of_err (h : r.err ≠ none) : parserFinish r = r := by
  simp [parserFinish, h]

theorem parserFinish_between (hlen : r.len = 0#w) : parserFinish r = r := by
  simp [parserFinish, hlen]

theorem parserFinish_in_token (h : r.err = none) (hlen : r.len ≠ 0#w) : parserFinish r = parserEndToken r := by
  simp [parserFinish, h, hlen]

/-- A latched error stands whatever text follows (40_parse R103). -/
theorem parserFinish_foldl_err (rest : List CharCode) (h : r.err ≠ none) :
    (parserFinish (rest.foldl (parserStep cfg) r)).err = r.err := by
  induction rest generalizing r with
  | nil => rw [List.foldl_nil, parserFinish_of_err h]
  | cons c rest ih =>
    rw [List.foldl_cons, parserStep_of_err h]
    exact ih h

/-! ### What each step makes of the registers -/

/-- A whitespace character between tokens only moves `pos`. -/
theorem ParserRegs.Holds.skip (h : r.Holds cfg pre [] frames) (ch : CharCode) :
    ({ r with pos := r.pos + 1#w } : ParserRegs w).Holds cfg (pre ++ [ch]) [] frames :=
  { h with
    pos := by simp [h.pos, BitVec.ofNat_add]
    start := fun hne => absurd rfl hne
    frames_le := h.frames_le.trans (by simp) }

/-- A character that is not whitespace joins the current token. -/
theorem ParserRegs.Holds.addChar (h : r.Holds cfg pre cur frames) (hlt : cur.length < 2 ^ w) (hch : ch ∉ cfg.ws) :
    (parserStep cfg r ch).Holds cfg pre (cur ++ [ch]) frames := by
  rw [parserStep_of_char h.err hch, parserAddChar_eq]
  exact { h with
    pos := by simp [h.pos, BitVec.ofNat_add, BitVec.add_assoc]
    start := fun _ => by
      by_cases hcur : cur = []
      · simp [(h.len_eq_zero_iff hlt).2 hcur, h.pos, hcur]
      · simp [mt (h.len_eq_zero_iff hlt).1 hcur, h.start hcur]
    len := by simp [h.len, BitVec.ofNat_add]
    acc := fun hbin => by
      obtain ⟨hcur, hc⟩ : cur.all isBin = true ∧ isBin ch = true := by simpa using hbin
      simp only [hc, if_true, h.acc hcur, List.map_append, List.map_cons, List.map_nil, ofBits_concat]
    bad := by cases hc : isBin ch <;> simp [hc, h.bad]
    run := by simpa [or_imp, forall_and] using ⟨h.run, hch⟩ }

/-- The end of a valid token delivers its frame (40_parse R103). -/
theorem ParserRegs.Holds.endToken (h : r.Holds cfg pre cur frames) (hlt : cur.length < 2 ^ w)
    (hv : validToken cur = true) : (parserEndToken r).Holds cfg (pre ++ cur) [] (frames ++ [frameOf cur]) := by
  have hacc : (r.bad || r.len.toNat != 9) = false := by rw [h.rejects_eq hlt, hv]; rfl
  obtain ⟨hlen, hbin⟩ : cur.length = 9 ∧ cur.all isBin = true := by simpa [validToken] using hv
  rw [parserEndToken_of_accepted hacc]
  exact {
    pos := by simp [h.pos]
    start := fun hne => absurd rfl hne
    len := rfl
    acc := fun _ => rfl
    bad := rfl
    nfr := by simp [h.nfr, BitVec.ofNat_add]
    buf := by simp only [h.buf, h.acc hbin]; rfl
    err := h.err
    run := by simp
    frames_le := by
      have := h.frames_le
      simp only [List.length_append, List.length_cons, List.length_nil]
      omega }

/-- The end of an invalid token latches where it stands in the text. -/
theorem ParserRegs.Holds.endToken_err (h : r.Holds cfg pre cur frames) (hlt : cur.length < 2 ^ w) (hne : cur ≠ [])
    (hv : validToken cur = false) :
    (parserEndToken r).err = some (BitVec.ofNat w pre.length, BitVec.ofNat w cur.length) := by
  have hrej : (r.bad || r.len.toNat != 9) = true := by rw [h.rejects_eq hlt, hv]; rfl
  rw [parserEndToken_err_of_rejected hrej, h.start hne, h.len]

/-! ### The result (40_parse R102, R103) -/

/-- What the reference parser makes of the tokens still to come when it holds the frames of those before: it stores the
frame of each valid token, ends at the first invalid one, and calls no frame at all `EmptyInput`. -/
def collect (frames : List Frame) : List Token → Except ParseError (Nat × List Frame)
  | [] => if frames = [] then .error .emptyInput else .ok (frames.length, frames)
  | t :: ts => if validToken t then collect (frames ++ [frameOf t]) ts else .error (.malformedFrame t)

theorem collect_cons_valid {t : Token} (ts : List Token) (hv : validToken t = true) :
    collect frames (t :: ts) = collect (frames ++ [frameOf t]) ts :=
  if_pos hv

theorem collect_cons_invalid {t : Token} (ts : List Token) (hv : validToken t = false) :
    collect frames (t :: ts) = .error (.malformedFrame t) :=
  if_neg (by simp [hv])

/-- With frames stored, collecting is the loop of `parse` with those frames in front. -/
theorem collect_of_ne_nil (ts : List Token) (h : frames ≠ []) :
    collect frames ts = (parseTokens ts).map fun fs => ((frames ++ fs).length, frames ++ fs) := by
  induction ts generalizing frames with
  | nil => simp [collect, h, parseTokens, Except.map]
  | cons t ts ih =>
    cases hv : validToken t with
    | false => simp [collect_cons_invalid ts hv, parseTokens, hv, Except.map]
    | true =>
      rw [collect_cons_valid ts hv, ih (by simp), parseTokens, if_pos hv]
      cases parseTokens ts <;> simp [Except.map]

/-- Collecting all tokens of a text is `parse` with the number of frames. -/
theorem collect_tokens_eq_parse (cfg : Config) (text : List CharCode) :
    collect [] (tokens cfg text) = (parse cfg text).map fun fs => (fs.length, fs) := by
  unfold parse
  cases tokens cfg text with
  | nil => rfl
  | cons t ts =>
    cases hv : validToken t with
    | false => simp [collect_cons_invalid ts hv, parseTokens, hv, Except.map]
    | true =>
      rw [collect_cons_valid ts hv, collect_of_ne_nil ts (by simp)]
      simp only [List.length_cons, parseTokens, if_pos hv]
      cases parseTokens ts <;> simp [Except.map]

/-- Between tokens at the end of the text the registers give the frames stored. -/
theorem ParserRegs.Holds.result (h : r.Holds cfg pre [] frames) (hlt : pre.length < 2 ^ w) (text : List CharCode) :
    parserResult text r = collect frames [] := by
  have hnfr : r.nfr.toNat = frames.length := by
    rw [h.nfr, BitVec.toNat_ofNat, Nat.mod_eq_of_lt (h.frames_le.trans_lt hlt)]
  have hzero : r.nfr = 0#w ↔ frames = [] := by
    rw [← BitVec.toNat_inj, hnfr, BitVec.toNat_zero, List.length_eq_zero_iff]
  simp only [parserResult, h.err, hzero, hnfr, h.buf, collect]

/-- A latched error gives the slice of the text it names. -/
theorem parserResult_of_err {text rest : List CharCode} (htext : pre ++ cur ++ rest = text) (hlt : text.length < 2 ^ w)
    (h : r.err = some (BitVec.ofNat w pre.length, BitVec.ofNat w cur.length)) :
    parserResult text r = .error (.malformedFrame cur) := by
  subst htext
  simp only [List.length_append] at hlt
  have hpre : (BitVec.ofNat w pre.length).toNat = pre.length := Nat.mod_eq_of_lt (by omega)
  have hcur : (BitVec.ofNat w cur.length).toNat = cur.length := Nat.mod_eq_of_lt (by omega)
  simp only [parserResult, h, hpre, hcur, List.append_assoc, List.drop_left, List.take_left]

/-- The text ends: a token in progress ends with it (40_parse R102). -/
theorem ParserRegs.Holds.result_finish {text : List CharCode} (h : r.Holds cfg pre cur frames)
    (htext : pre ++ cur = text) (hlt : text.length < 2 ^ w) :
    parserResult text (parserFinish r) = collect frames (tokens cfg cur) := by
  have hlens : (pre ++ cur).length < 2 ^ w := htext ▸ hlt
  have hcur : cur.length < 2 ^ w := by simp only [List.length_append] at hlens; omega
  by_cases hne : cur = []
  · subst hne
    rw [parserFinish_between ((h.len_eq_zero_iff hcur).2 rfl), h.result (by simpa using hlens)]
    rfl
  · rw [parserFinish_in_token h.err (mt (h.len_eq_zero_iff hcur).1 hne), tokens_of_run cfg cur hne h.run]
    cases hv : validToken cur with
    | false =>
      rw [parserResult_of_err ((List.append_nil _).trans htext) hlt (h.endToken_err hcur hne hv),
        collect_cons_invalid [] hv]
    | true => rw [(h.endToken hcur hv).result hlens, collect_cons_valid [] hv]

/-- From registers that hold what was read so far, the reference parser's result is what the current token and the rest
of the text give (40_parse R103). -/
theorem ParserRegs.Holds.result_foldl {text rest : List CharCode} (h : r.Holds cfg pre cur frames)
    (htext : pre ++ cur ++ rest = text) (hlt : text.length < 2 ^ w) :
    parserResult text (parserFinish (rest.foldl (parserStep cfg) r)) = collect frames (tokens cfg (cur ++ rest)) := by
  induction rest generalizing r pre cur frames with
  | nil =>
    rw [List.append_nil] at htext ⊢
    exact h.result_finish htext hlt
  | cons c rest ih =>
    have hcur : cur.length < 2 ^ w := by simp only [← htext, List.length_append] at hlt; omega
    rw [List.foldl_cons]
    by_cases hc : c ∈ cfg.ws
    · by_cases hne : cur = []
      · subst hne
        rw [parserStep_of_ws_between h.err hc ((h.len_eq_zero_iff hcur).2 rfl), ih (h.skip c) (by simp [← htext])]
        simp only [List.nil_append, tokens_cons_ws cfg c rest hc]
      · rw [parserStep_of_ws_in_token h.err hc (mt (h.len_eq_zero_iff hcur).1 hne),
          tokens_append_ws cfg cur c rest hne h.run hc]
        cases hv : validToken cur with
        | false =>
          have herr := h.endToken_err hcur hne hv
          rw [collect_cons_invalid _ hv]
          exact parserResult_of_err htext hlt ((parserFinish_foldl_err rest (by simp [herr])).trans herr)
        | true =>
          rw [ih ((h.endToken hcur hv).skip c) (by simp [← htext]), collect_cons_valid _ hv, List.nil_append]
    · rw [ih (h.addChar hcur hc) (by simp [← htext]), List.append_assoc, List.singleton_append]

end Registers

/-- Settles O31: the registers start with nothing read, so the result is what all tokens of the text give. -/
theorem serialParserComputesParse : Obligations.SerialParserComputesParse := by
  intro cfg text hlen
  have hlt : text.length < 2 ^ cfg.cntW.val := by
    have := Nat.two_pow_pos cfg.cntW.val
    unfold Config.maxItems at hlen
    omega
  calc serialParse cfg text
      = collect [] (tokens cfg text) := (parserInit_holds cfg cfg.cntW.val).result_foldl rfl hlt
    _ = (parse cfg text).map fun fs => (fs.length, fs) := collect_tokens_eq_parse cfg text

/-- A text within the machine's limit is a legal payload of `PARSE`. -/
theorem parse_legal {cfg : Config} {text : List CharCode} (conv : Convention) (h : text.length ≤ cfg.maxItems) :
    illegal cfg (.parse conv text.length) (text.map .char) = none :=
  (illegal_eq_none_iff _ _ _).2 ⟨h, List.length_map _, rfl, all_isChar_map text⟩

/-- Settles O32: `PARSE` and the reference parser send the same result on. -/
theorem serialParserAnswersAsParse : Obligations.SerialParserAnswersAsParse := by
  intro conv text s hp hlen
  rw [exec_parse_of_legal (hp ▸ parse_legal conv hlen), runParse, runSerialParse, hp, charsOf_map_char,
    serialParserComputesParse s.config text hlen]

end Sys2Proof.Machine

/-! ### Every response is a row of the response table (30_encoding R75, 60_exceptions R171) -/

namespace Sys2Proof.Machine

@[simp] theorem Response.statusCode_rspWord (op : BitVec 3) (conv : Convention) (st : Status) (m : Nat)
    (items : List Item) :
    ({ word := rspWord op conv st m, payload := items } : Response).statusCode = st.code.toNat := by
  rw [Response.statusCode, rspWord_statusField]

@[simp] theorem Response.op_rspWord (op : BitVec 3) (conv : Convention) (st : Status) (m : Nat)
    (items : List Item) : ({ word := rspWord op conv st m, payload := items } : Response).op = op :=
  rspWord_opField op conv st m

/-- A count within `MAX_ITEMS` is read back from the response (20_memory R49). -/
theorem Response.m_rspWord {cfg : Config} {m : Nat} (hm : m ≤ cfg.maxItems) (op : BitVec 3) (conv : Convention)
    (st : Status) (items : List Item) : ({ word := rspWord op conv st m, payload := items } : Response).m = m := by
  rw [Response.m, rspWord_countField, BitVec.toNat_ofNat, Nat.mod_eq_of_lt (hm.trans_lt (maxItems_lt cfg))]

/-- The state after one response that is a row of the table, however many draws were made before it. -/
def State.AnswersRow (s t : State) : Prop :=
  ∃ (a : Response) (k : Nat), Answered s t a k ∧ a.WellFormed s.config

/-- One more row of the table, and the request over: the invariant holds. -/
theorem State.AnswersRow.inv {s t : State} (h : s.AnswersRow t) (hcfg : s.config.WellFormed)
    (hrec : ∀ r ∈ s.received, r.WellFormed s.config) : t.Inv := by
  obtain ⟨a, k, rfl, ha⟩ := h
  exact ⟨hcfg, rfl, List.forall_mem_append.2 ⟨hrec, List.forall_mem_singleton.2 ha⟩⟩

/-- The refusal is a row of the table whatever bits it echoes (60_exceptions R174). -/
theorem State.answersRow_refuse (s : State) (op : BitVec 3) (conv : Convention) : s.AnswersRow (s.refuse op conv) :=
  ⟨_, _, answered_refuse s op conv,
    by simp [Response.WellFormed, Status.code, Response.m_rspWord (Nat.zero_le s.config.maxItems)]⟩

/-- Serving answers a row of the table if the operation does so on a legal request. -/
theorem serve_answersRow {i : Instr} {s : State} {run : State → State}
    (hrun : illegal s.config i s.payload = none → s.AnswersRow (run s)) :
    ∃ t, serve i s run = .next t ∧ s.AnswersRow t := by
  by_cases hl : illegal s.config i s.payload = none
  · exact ⟨_, serve_of_legal run hl, hrun hl⟩
  · exact ⟨_, serve_of_illegal run hl, s.answersRow_refuse _ _⟩

/-! ### `PARSE` -/

/-- The loop of `parse` gives one frame per token. -/
theorem length_of_parseTokens_ok {ts : List Token} {fs : List Frame} (h : parseTokens ts = .ok fs) :
    fs.length = ts.length := by
  induction ts generalizing fs with
  | nil => cases h; rfl
  | cons t ts ih =>
    simp only [parseTokens] at h
    split at h
    · split at h
      · next hts => cases h; simp [ih hts]
      · cases h
    · cases h

/-- The loop of `parse` fails only at one of its tokens. -/
theorem mem_of_parseTokens_error {ts : List Token} {e : ParseError} (h : parseTokens ts = .error e) :
    ∃ t ∈ ts, e = .malformedFrame t := by
  induction ts with
  | nil => cases h
  | cons t ts ih =>
    simp only [parseTokens] at h
    split at h
    · split at h
      · cases h
      · next hts =>
        cases h
        obtain ⟨t', ht', rfl⟩ := ih hts
        exact ⟨t', List.mem_cons_of_mem t ht', rfl⟩
    · cases h
      exact ⟨t, List.mem_cons_self, rfl⟩

/-- A text with tokens is parsed by the loop over them. -/
theorem parse_eq_parseTokens {cfg : Config} {text : List CharCode} (h : tokens cfg text ≠ []) :
    parse cfg text = parseTokens (tokens cfg text) := by
  simp [parse, h]

/-- A text without tokens is empty input (40_parse R94). -/
theorem parse_eq_emptyInput {cfg : Config} {text : List CharCode} (h : tokens cfg text = []) :
    parse cfg text = .error .emptyInput := by
  simp [parse, h]

/-- A parsed text gives at least one frame, and no more frames than it has characters. -/
theorem length_of_parse_ok {cfg : Config} {text : List CharCode} {fs : List Frame} (h : parse cfg text = .ok fs) :
    1 ≤ fs.length ∧ fs.length ≤ text.length := by
  by_cases htok : tokens cfg text = []
  · simp [parse_eq_emptyInput htok] at h
  · rw [parse_eq_parseTokens htok] at h
    rw [length_of_parseTokens_ok h]
    exact ⟨List.length_pos_iff.2 htok, tokens_length_le cfg text⟩

/-- The token reported as malformed has a character, and no more characters than the text. -/
theorem length_of_parse_malformed {cfg : Config} {text : List CharCode} {t : Token}
    (h : parse cfg text = .error (.malformedFrame t)) : 1 ≤ t.length ∧ t.length ≤ text.length := by
  by_cases htok : tokens cfg text = []
  · simp [parse_eq_emptyInput htok] at h
  · obtain ⟨t', ht, heq⟩ := mem_of_parseTokens_error (parse_eq_parseTokens htok ▸ h)
    cases heq
    exact ⟨List.length_pos_iff.2 ((tokens_size cfg text).2 t ht), token_length_le cfg text ht⟩

/-- `PARSE` answers frames, `EmptyInput` or a malformed token, none longer than the text it was given. -/
theorem runParse_answersRow {conv : Convention} {n : Nat} {s : State}
    (hl : illegal s.config (.parse conv n) s.payload = none) : s.AnswersRow (runParse (.parse conv n) s) := by
  obtain ⟨hn, hlen, -, -⟩ := (illegal_eq_none_iff _ _ _).1 hl
  have hle : (charsOf s.payload).length ≤ s.config.maxItems :=
    (List.length_filterMap_le _ _).trans (hlen.trans_le hn)
  obtain ⟨fs, hp, hrun⟩ | ⟨-, hrun⟩ | ⟨t, hp, hrun⟩ := runParse_cases (.parse conv n) s
  · obtain ⟨hpos, hfs⟩ := length_of_parse_ok hp
    have hm := hfs.trans hle
    refine ⟨_, _, hrun ▸ answered_respond s _ _ _ _, ?_⟩
    simpa [Response.WellFormed, Status.code, Instr.opcode, Response.m_rspWord hm, Item.isFrame] using ⟨hpos, hm⟩
  · refine ⟨_, _, hrun ▸ answered_raise s _ _ _, ?_⟩
    simp [Response.WellFormed, Status.code, Instr.opcode, Response.m_rspWord (Nat.zero_le s.config.maxItems)]
  · obtain ⟨hpos, ht⟩ := length_of_parse_malformed hp
    have hm := ht.trans hle
    refine ⟨_, _, hrun ▸ answered_raise s _ _ _, ?_⟩
    simpa [Response.WellFormed, Status.code, Instr.opcode, Response.m_rspWord hm, Item.isChar] using ⟨hpos, hm⟩

/-! ### The operations on bits and frames -/

/-- `PAR` answers a bit: `m` is at most 1. -/
theorem par_answersRow (conv : Convention) (d : DataBits) (s : State) :
    s.AnswersRow (s.respond (.par conv d) .ok (computeParityBit d conv).toNat []) := by
  refine ⟨_, _, answered_respond s _ _ _ _, ?_⟩
  have hbit := Bool.toNat_le (computeParityBit d conv)
  have hm : (computeParityBit d conv).toNat ≤ Config.default.maxItems := hbit.trans (by decide)
  simpa [Response.WellFormed, Status.code, Instr.opcode, Response.m_rspWord hm] using hbit

/-- A payload of `FRAME` items only holds as many frames as items. -/
theorem length_framesOf {p : List Item} (h : p.all Item.isFrame = true) : (framesOf p).length = p.length := by
  rw [← List.length_map (f := Item.frame), map_framesOf h]

/-- The mismatch bits of the `CHK` items count what the aggregate counts (42_check R122). -/
theorem countP_isMismatch_chk (conv : Convention) (rs : List CheckResult) :
    (rs.map fun r => Item.chk (chkWord conv r)).countP Item.isMismatch = mismatchCount rs := by
  rw [List.countP_map, mismatchCount]
  exact List.countP_congr fun r _ => by simp only [Function.comp_apply, Item.isMismatch, chkWord_mismatch]

/-- The changed bits of the `CFRAME` items count the `CorrectionSet` (45_correct R160). -/
theorem countP_isChanged_correctionItems (conv : Convention) (fs : List Frame) :
    (correctionItems conv fs).countP Item.isChanged = (correctionSet conv fs).length := by
  rw [correctionItems_eq, List.countP_map, correctionSet_length]
  exact List.countP_congr fun f _ => by simp only [Function.comp_apply, Item.isChanged, cframeWord_changed]

/-- A legal payload of `FRAME` items holds the number of frames the operation requires. -/
theorem length_framesOf_of_legal {cfg : Config} {i : Instr} {p : List Item}
    (hi : itemsOfType i p = p.all Item.isFrame) (hl : illegal cfg i p = none) :
    (framesOf p).length = requiredItems i := by
  obtain ⟨-, hlen, -, htype⟩ := (illegal_eq_none_iff _ _ _).1 hl
  exact (length_framesOf (hi ▸ htype)).trans hlen

/-- A legal count is within the machine's limit. -/
theorem countOf_le_of_legal {cfg : Config} {i : Instr} {p : List Item} (hl : illegal cfg i p = none) :
    countOf i ≤ cfg.maxItems :=
  ((illegal_eq_none_iff _ _ _).1 hl).1

/-- Where a count of 0 is forbidden, a legal count is positive (30_encoding R77 item 4). -/
theorem countOf_pos_of_legal {cfg : Config} {i : Instr} {p : List Item}
    (hi : zeroCountForbidden i = (countOf i == 0)) (hl : illegal cfg i p = none) : 1 ≤ countOf i := by
  obtain ⟨-, -, hzero, -⟩ := (illegal_eq_none_iff _ _ _).1 hl
  exact Nat.pos_of_ne_zero (by simpa [hi] using hzero)

/-- `CHECK` answers one `CHK` item per frame and counts those that mismatch. -/
theorem runCheck_answersRow {conv : Convention} {n : Nat} {s : State}
    (hl : illegal s.config (.check conv n) s.payload = none) : s.AnswersRow (runCheck conv (.check conv n) s) := by
  have hpos : 1 ≤ n := countOf_pos_of_legal rfl hl
  have hn : n ≤ s.config.maxItems := countOf_le_of_legal hl
  have hlen : (checkResults conv (framesOf s.payload)).length = n :=
    (List.length_map _).trans (length_framesOf_of_legal rfl hl)
  have hm : mismatchCount (checkResults conv (framesOf s.payload)) ≤ s.config.maxItems :=
    List.countP_le_length.trans (hlen.trans_le hn)
  have hcount := (countP_isMismatch_chk conv (checkResults conv (framesOf s.payload))).symm
  refine ⟨_, _, answered_respond s _ _ _ _, ?_⟩
  simpa [Response.WellFormed, Status.code, Instr.opcode, Response.m_rspWord hm, Item.isChk, hlen]
    using And.intro hpos (And.intro hn hcount)

/-- `CORR` answers one `CFRAME` item per frame and counts those that changed. -/
theorem runCorr_answersRow {conv : Convention} {n : Nat} {s : State}
    (hl : illegal s.config (.corr conv n) s.payload = none) : s.AnswersRow (runCorr conv (.corr conv n) s) := by
  have hpos : 1 ≤ n := countOf_pos_of_legal rfl hl
  have hn : n ≤ s.config.maxItems := countOf_le_of_legal hl
  have hlen : (framesOf s.payload).length = n := length_framesOf_of_legal rfl hl
  have hm : (correctionSet conv (framesOf s.payload)).length ≤ s.config.maxItems := by
    rw [correctionSet_length]
    exact List.countP_le_length.trans (hlen.trans_le hn)
  have hcount := (countP_isChanged_correctionItems conv (framesOf s.payload)).symm
  refine ⟨_, _, answered_respond s _ _ _ _, ?_⟩
  simpa [Response.WellFormed, Status.code, Instr.opcode, Response.m_rspWord hm, Item.isCframe, correctionItems_eq, hlen]
    using And.intro hpos (And.intro hn hcount)

/-- `GEN` answers as many frames as were asked for. -/
theorem runGen_answersRow {conv : Convention} {n : Nat} {s : State}
    (hl : illegal s.config (.gen conv n) s.payload = none) : s.AnswersRow (runGen conv n (.gen conv n) s) := by
  have hpos : 1 ≤ n := countOf_pos_of_legal rfl hl
  have hm : n ≤ s.config.maxItems := countOf_le_of_legal hl
  refine ⟨_, _, answered_consume_respond s _ _ _ _ _, ?_⟩
  simpa [Response.WellFormed, Status.code, Instr.opcode, Response.m_rspWord hm, Item.isFrame] using ⟨hpos, hm⟩

/-- `INJ` answers the frames it was given and the drawn location, or `EmptyFrameSet`. -/
theorem runInj_answersRow {conv : Convention} {n : Nat} {s : State}
    (hl : illegal s.config (.inj conv n) s.payload = none) : s.AnswersRow (runInj (.inj conv n) s) := by
  obtain ⟨-, hrun⟩ | ⟨hne, hrun⟩ := runInj_cases (.inj conv n) s
  · refine ⟨_, _, hrun ▸ answered_raise s _ _ _, ?_⟩
    simp [Response.WellFormed, Status.code, Instr.opcode, Response.m_rspWord (Nat.zero_le s.config.maxItems)]
  · refine ⟨_, _, hrun ▸ answered_consume_respond s _ _ _ _ _, ?_⟩
    have hm : (framesOf s.payload).length ≤ s.config.maxItems :=
      (length_framesOf_of_legal rfl hl).trans_le (countOf_le_of_legal hl)
    have hpos : 1 ≤ (framesOf s.payload).length := List.length_pos_iff.2 hne
    have hframe := s.randIndex_lt 0 hpos
    have hbit := s.randIndex_lt 1 (n := 9) (by decide)
    simp only [Response.WellFormed, Status.code, Instr.opcode, Response.m_rspWord hm, rspWord_zeroField,
      Response.statusCode_rspWord, Response.op_rspWord]
    refine ⟨trivial, hpos, hm, _, _, rfl, flipAt_length _ _, ?_, mutWord_zeroField _, ?_⟩
    · rwa [mutWord_frameIndex _ (hframe.trans (hm.trans_lt (maxItems_lt _)))]
    · rw [mutWord_bitIndex _ (hbit.trans (by decide))]
      exact Nat.le_of_lt_succ hbit

/-! ### Every step keeps the invariant -/

/-- Executing any operation in any state answers one row of the table. -/
theorem exec_answersRow (i : Instr) (s : State) : ∃ t, exec i s = .next t ∧ s.AnswersRow t := by
  rw [exec_eq_serve]
  cases i with
  | parse conv n => exact serve_answersRow runParse_answersRow
  | par conv d => exact serve_answersRow fun _ => par_answersRow conv d s
  | check conv n => exact serve_answersRow runCheck_answersRow
  | gen conv n => exact serve_answersRow runGen_answersRow
  | inj conv n => exact serve_answersRow runInj_answersRow
  | corr conv n => exact serve_answersRow runCorr_answersRow

/-- Settles O18: a step stays idle or adds one row of the table, and taking a request changes no response. -/
theorem stepKeepsInvariant : Obligations.StepKeepsInvariant := by
  intro s t hinv hstep
  have ⟨hcfg, _, hrec⟩ := hinv
  obtain ⟨-, hidle⟩ | ⟨r, rest, i, -, -, hexec⟩ | ⟨r, rest, e, -, -, hrefuse⟩ := step_cases s
  · cases hstep.symm.trans hidle
    exact hinv
  · obtain ⟨t', ht', hrow⟩ := exec_answersRow i (s.take r rest)
    cases (hstep.symm.trans hexec).trans ht'
    exact hrow.inv hcfg hrec
  · cases hstep.symm.trans hrefuse
    exact ((s.take r rest).answersRow_refuse _ _).inv hcfg hrec

/-! ### The response is a function of the request and its draws (10_state R20) -/

/-- Serving two states of one machine gives equal responses if the operation does so on a legal request. -/
theorem serve_received_congr {i : Instr} {s t : State} {run : State → State} (hc : s.config = t.config)
    (hp : s.payload = t.payload)
    (hrun : illegal s.config i s.payload = none →
      ∃ a, (run s).received = s.received ++ [a] ∧ (run t).received = t.received ++ [a]) :
    ∃ (s' t' : State) (a : Response), serve i s run = .next s' ∧ serve i t run = .next t' ∧
      s'.received = s.received ++ [a] ∧ t'.received = t.received ++ [a] := by
  by_cases hl : illegal s.config i s.payload = none
  · obtain ⟨a, hs, ht⟩ := hrun hl
    exact ⟨_, _, a, serve_of_legal run hl, serve_of_legal run (hc ▸ hp ▸ hl), hs, ht⟩
  · exact ⟨_, _, _, serve_of_illegal run hl, serve_of_illegal run (hc ▸ hp ▸ hl), rfl, rfl⟩

/-- `PARSE` answers what the text and `WS` give. -/
theorem runParse_received_congr (i : Instr) {s t : State} (hc : s.config = t.config) (hp : s.payload = t.payload) :
    ∃ a, (runParse i s).received = s.received ++ [a] ∧ (runParse i t).received = t.received ++ [a] := by
  unfold runParse
  rw [hc, hp]
  rcases parse t.config (charsOf t.payload) with (_ | tok) | fs <;> exact ⟨_, rfl, rfl⟩

/-- A legal `GEN` of `n` frames makes `8*n` draws (60_exceptions R186). -/
theorem drawsMade_gen_of_legal {cfg : Config} {conv : Convention} {n : Nat} {p : List Item}
    (hl : illegal cfg (.gen conv n) p = none) : drawsMade cfg (.gen conv n) p = 8 * n := by
  obtain ⟨hn, hlen, -, -⟩ := (illegal_eq_none_iff _ _ _).1 hl
  exact if_pos ⟨List.length_eq_zero_iff.1 hlen, hn⟩

/-- A legal `INJ` of at least one frame makes two draws (60_exceptions R186). -/
theorem drawsMade_inj_of_legal {cfg : Config} {conv : Convention} {n : Nat} {p : List Item}
    (hl : illegal cfg (.inj conv n) p = none) (hne : framesOf p ≠ []) : drawsMade cfg (.inj conv n) p = 2 := by
  obtain ⟨hn, hlen, -, htype⟩ := (illegal_eq_none_iff _ _ _).1 hl
  have hpos : n ≠ 0 := by
    rintro rfl
    exact hne (by rw [List.length_eq_zero_iff.1 hlen]; rfl)
  exact if_pos ⟨hpos, hn, hlen, htype⟩

/-- `GEN` answers what its bits give. -/
theorem runGen_received_congr {conv : Convention} {n : Nat} {s t : State} (hc : s.config = t.config)
    (hl : illegal s.config (.gen conv n) s.payload = none)
    (hd : drawn (.gen conv n) s.payload s = drawn (.gen conv n) s.payload t) :
    ∃ a, (runGen conv n (.gen conv n) s).received = s.received ++ [a] ∧
      (runGen conv n (.gen conv n) t).received = t.received ++ [a] := by
  have hframes : generate conv n s.randBit = generate conv n t.randBit :=
    generate_congr conv fun k hk => randBit_of_drawn hc hd (by rwa [drawsMade_gen_of_legal hl])
  exact ⟨_, rfl, by rw [hframes]; rfl⟩

/-- Equal draws of a legal `INJ` of at least one frame are one location. -/
theorem drawnMutation_of_drawn {conv : Convention} {n : Nat} {s t : State} (hc : s.config = t.config)
    (hl : illegal s.config (.inj conv n) s.payload = none) (hne : framesOf s.payload ≠ [])
    (hd : drawn (.inj conv n) s.payload s = drawn (.inj conv n) s.payload t) :
    drawnMutation (framesOf s.payload).length s = drawnMutation (framesOf s.payload).length t := by
  have hlen : (framesOf s.payload).length = n := length_framesOf_of_legal rfl hl
  simpa [drawnMutation, hlen, drawn, ← hc, drawsMade_inj_of_legal hl hne] using hd

/-- `INJ` answers what the frames and the drawn location give. -/
theorem runInj_received_congr {conv : Convention} {n : Nat} {s t : State} (hc : s.config = t.config)
    (hp : s.payload = t.payload) (hl : illegal s.config (.inj conv n) s.payload = none)
    (hd : drawn (.inj conv n) s.payload s = drawn (.inj conv n) s.payload t) :
    ∃ a, (runInj (.inj conv n) s).received = s.received ++ [a] ∧
      (runInj (.inj conv n) t).received = t.received ++ [a] := by
  obtain ⟨hnil, hs⟩ | ⟨hne, hs⟩ := runInj_cases (.inj conv n) s <;>
  obtain ⟨hnil', ht⟩ | ⟨hne', ht⟩ := runInj_cases (.inj conv n) t
  · rw [hs, ht]
    exact ⟨_, rfl, rfl⟩
  · exact absurd (hp ▸ hnil) hne'
  · exact absurd (hp ▸ hnil') hne
  · rw [hs, ht, ← hp, drawnMutation_of_drawn hc hl hne hd]
    exact ⟨_, rfl, rfl⟩

/-- Executing an operation on one payload with equal draws gives equal responses. -/
theorem exec_received_congr {i : Instr} {s t : State} (hc : s.config = t.config) (hp : s.payload = t.payload)
    (hd : drawn i s.payload s = drawn i s.payload t) :
    ∃ (s' t' : State) (a : Response), exec i s = .next s' ∧ exec i t = .next t' ∧
      s'.received = s.received ++ [a] ∧ t'.received = t.received ++ [a] := by
  rw [exec_eq_serve, exec_eq_serve]
  refine serve_received_congr hc hp fun hl => ?_
  cases i with
  | parse conv n => exact runParse_received_congr _ hc hp
  | par conv d => exact ⟨_, rfl, rfl⟩
  | check conv n => exact ⟨_, rfl, by rw [hp]; rfl⟩
  | gen conv n => exact runGen_received_congr hc hl hd
  | inj conv n => exact runInj_received_congr hc hp hl hd
  | corr conv n => exact ⟨_, rfl, by rw [hp]; rfl⟩

/-- Taking a request makes no draw. -/
theorem drawn_take (i : Instr) (p : List Item) (s : State) (r : Request) (rest : List Request) :
    drawn i p (s.take r rest) = drawn i p s :=
  drawn_congr rfl fun _ _ => rfl

/-- A request whose word decodes is executed on its payload. -/
theorem step_of_decode_ok {s : State} {r : Request} {rest : List Request} {i : Instr}
    (hr : s.callerProgram = r :: rest) (hdec : decode r.word = .ok i) : step s = exec i (s.take r rest) := by
  simp [step, hr, hdec]

/-- Settles O16: both states run one operation on one payload with equal draws, or both refuse the word. -/
theorem responseDependsOnRequestAndDraws : Obligations.ResponseDependsOnRequestAndDraws := by
  intro s t r rest rest' hc hs ht hd
  cases hdec : decode r.word with
  | ok i =>
    have hdrawn : drawn i r.payload (s.take r rest) = drawn i r.payload (t.take r rest') := by
      rw [drawn_take, drawn_take]
      simpa only [Request.drawn, hdec] using hd
    rw [step_of_decode_ok hs hdec, step_of_decode_ok ht hdec]
    exact exec_received_congr (s := s.take r rest) (t := t.take r rest') hc rfl hdrawn
  | error e =>
    have hill : ∀ (cfg : Config) i, decode r.word = .ok i → illegal cfg i r.payload ≠ none := by simp [hdec]
    exact ⟨_, _, _, step_of_illegal hs (hill _), step_of_illegal ht (hill _), rfl, rfl⟩

end Sys2Proof.Machine

/-! ### One transaction and nothing else: taking a request and ending an operation (20_memory R48, R54) -/

namespace Sys2Proof.Machine

/-- Settles O7: the state in which the request is taken is the one the statement writes out. -/
theorem stepRunsDecodedOperation : Obligations.StepRunsDecodedOperation := fun _ _ _ _ hr hdec =>
  step_of_decode_ok hr hdec

/-- From `s` to `t` the operation `i` ended once: one response that echoes its `op` and `conv` bits, the draws of
60_exceptions R186, and no other change. -/
def State.EndsOnce (s : State) (i : Instr) (t : State) : Prop :=
  ∃ a : Response, Answered s t a (drawsMade s.config i s.payload) ∧
    a.word.extractLsb' 29 3 = i.opcode ∧ a.word.getLsbD 28 = i.conv.bit

/-- Every response word built for an operation echoes it, so only the number of draws is to be shown. -/
theorem State.endsOnce_of_answered {s t : State} {i : Instr} {st : Status} {m k : Nat} {items : List Item}
    (h : Answered s t { word := rspWord i.opcode i.conv st m, payload := items } k)
    (hk : drawsMade s.config i s.payload = k) : s.EndsOnce i t := by
  subst hk
  exact ⟨_, h, rspWord_opField i.opcode i.conv st m, rspWord_convBit i.opcode i.conv st m⟩

/-- A refused operation makes no draw (60_exceptions R174); a `GEN` of no frames makes `8*0` draws. -/
theorem drawsMade_of_illegal {cfg : Config} {i : Instr} {p : List Item} (h : illegal cfg i p ≠ none) :
    drawsMade cfg i p = 0 := by
  rw [Ne, illegal_eq_none_iff] at h
  cases i with
  | gen conv n =>
    refine ite_eq_right_iff.2 fun ⟨hp, hn⟩ => ?_
    have hzero : n = 0 := by simpa [countOf, requiredItems, zeroCountForbidden, itemsOfType, hp, hn] using h
    rw [hzero]
  | inj conv n => exact if_neg fun ⟨_, hn, hlen, htype⟩ => h ⟨hn, hlen, rfl, htype⟩
  | parse | par | check | corr => rfl

/-- A legal `INJ` of no frames makes no draw (44_inject R146). -/
theorem drawsMade_inj_of_no_frames {cfg : Config} {conv : Convention} {n : Nat} {p : List Item}
    (hl : illegal cfg (.inj conv n) p = none) (hnil : framesOf p = []) : drawsMade cfg (.inj conv n) p = 0 := by
  have hn : (framesOf p).length = n := length_framesOf_of_legal rfl hl
  exact if_neg fun ⟨hne, _⟩ => hne (by simpa [hnil] using hn.symm)

/-- Serving ends the operation once if the operation does so on a legal request. -/
theorem serve_endsOnce {i : Instr} {s : State} {run : State → State}
    (hrun : illegal s.config i s.payload = none → s.EndsOnce i (run s)) :
    ∃ t, serve i s run = .next t ∧ s.EndsOnce i t := by
  by_cases hl : illegal s.config i s.payload = none
  · exact ⟨_, serve_of_legal run hl, hrun hl⟩
  · exact ⟨_, serve_of_illegal run hl, State.endsOnce_of_answered (answered_refuse s _ _) (drawsMade_of_illegal hl)⟩

/-- `PARSE` ends once, with frames or with either error. -/
theorem runParse_endsOnce (conv : Convention) (n : Nat) (s : State) :
    s.EndsOnce (.parse conv n) (runParse (.parse conv n) s) := by
  obtain ⟨fs, -, hrun⟩ | ⟨-, hrun⟩ | ⟨t, -, hrun⟩ := runParse_cases (.parse conv n) s
  · exact State.endsOnce_of_answered (hrun ▸ answered_respond s _ _ _ _) rfl
  · exact State.endsOnce_of_answered (hrun ▸ answered_raise s _ _ _) rfl
  · exact State.endsOnce_of_answered (hrun ▸ answered_raise s _ _ _) rfl

/-- A legal `INJ` ends once, with `EmptyFrameSet` and no draw or with one flip and two draws. -/
theorem runInj_endsOnce {conv : Convention} {n : Nat} {s : State}
    (hl : illegal s.config (.inj conv n) s.payload = none) :
    s.EndsOnce (.inj conv n) (runInj (.inj conv n) s) := by
  obtain ⟨hnil, hrun⟩ | ⟨hne, hrun⟩ := runInj_cases (.inj conv n) s
  · exact State.endsOnce_of_answered (hrun ▸ answered_raise s _ _ _) (drawsMade_inj_of_no_frames hl hnil)
  · exact State.endsOnce_of_answered (hrun ▸ answered_consume_respond s _ _ _ _ _) (drawsMade_inj_of_legal hl hne)

/-- Executing any operation in any state ends it once. -/
theorem exec_endsOnce (i : Instr) (s : State) : ∃ t, exec i s = .next t ∧ s.EndsOnce i t := by
  rw [exec_eq_serve]
  refine serve_endsOnce fun hl => ?_
  cases i with
  | parse conv n => exact runParse_endsOnce conv n s
  | par conv d => exact State.endsOnce_of_answered (answered_respond s _ _ _ _) rfl
  | check conv n => exact State.endsOnce_of_answered (answered_respond s _ _ _ _) rfl
  | gen conv n =>
    exact State.endsOnce_of_answered (answered_consume_respond s _ _ _ _ _) (drawsMade_gen_of_legal hl)
  | inj conv n => exact runInj_endsOnce hl
  | corr conv n => exact State.endsOnce_of_answered (answered_respond s _ _ _ _) rfl

/-- Settles O14: a legal operation ends once with its draws, and an illegal one with the refusal and no draw. -/
theorem oneResponseAndNothingElse : Obligations.OneResponseAndNothingElse := by
  intro i s
  obtain ⟨t, hexec, a, hans, hop, hconv⟩ := exec_endsOnce i s
  exact ⟨t, a, hexec, hans, hop, hconv⟩

end Sys2Proof.Machine

/-! ### Rendering and parsing (20_memory R55, R56) -/

namespace Sys2Proof.Machine

/-- More than one frame: the first one, the separator and the rendering of the others. -/
theorem render_cons_cons (f g : Frame) (fs : List Frame) :
    render (f :: g :: fs) = renderFrame f ++ Config.separator :: render (g :: fs) := rfl

theorem renderFrame_ne_nil (f : Frame) : renderFrame f ≠ [] :=
  List.ne_nil_of_length_pos (by simp [renderFrame])

/-- Where no digit is whitespace, a rendered frame has no whitespace. -/
theorem renderFrame_not_ws {cfg : Config} (hcfg : cfg.WellFormed) (f : Frame) : ∀ c ∈ renderFrame f, c ∉ cfg.ws := by
  intro c hc
  obtain ⟨-, hdigit⟩ := renderFrame_isValidToken f
  obtain rfl | rfl := hdigit c hc
  · exact hcfg.1
  · exact hcfg.2

/-- The tokens of a rendering are the rendered frames, in order. -/
theorem tokens_render {cfg : Config} (hcfg : cfg.WellFormed) (hsep : Config.separator ∈ cfg.ws) (fs : List Frame) :
    tokens cfg (render fs) = fs.map renderFrame := by
  induction fs with
  | nil => rfl
  | cons f fs ih =>
    cases fs with
    | nil => exact tokens_of_run cfg _ (renderFrame_ne_nil f) (renderFrame_not_ws hcfg f)
    | cons g fs =>
      rw [render_cons_cons, tokens_append_ws cfg _ _ _ (renderFrame_ne_nil f) (renderFrame_not_ws hcfg f) hsep]
      exact congrArg (renderFrame f :: ·) ih

/-- The loop of `parse` over rendered frames returns the frames. -/
theorem parseTokens_map_renderFrame (fs : List Frame) : parseTokens (fs.map renderFrame) = .ok fs := by
  have hround : frameOf ∘ renderFrame = id := funext frameOf_renderFrame
  rw [parseTokens_of_valid _ (List.forall_mem_map.2 fun f _ => renderFrame_isValidToken f), List.map_map, hround,
    List.map_id]

/-- Settles O34: the tokens of the rendering are the rendered frames, each valid and read back as its frame. -/
theorem parseOfRenderedFramesReturnsThem : Obligations.ParseOfRenderedFramesReturnsThem := by
  intro cfg fs hne hsep h0 h1
  have htok : tokens cfg (render fs) = fs.map renderFrame := tokens_render ⟨h0, h1⟩ hsep fs
  have hsome : tokens cfg (render fs) ≠ [] := by simpa [htok] using hne
  rw [parse_eq_parseTokens hsome, htok, parseTokens_map_renderFrame]

end Sys2Proof.Machine


/-! ### Request words: encoding and decoding (30_encoding R65 to R68) -/

namespace Sys2Proof

@[simp] theorem Convention.ofBit_bit (c : Convention) : Convention.ofBit c.bit = c := by
  cases c <;> rfl

/-- The `conv` field of a word is `c` when bit 28 is the bit of `c` (30_encoding R66). -/
theorem convField_eq_of_bit {w : Word} {c : Convention} (h : w.getLsbD 28 = c.bit) : convField w = c := by
  rw [convField, h, Convention.ofBit_bit]

/-- The operand of `i` stands in its field of the word, and the reserved field of its format is zero (30_encoding R65,
R68). -/
def Instr.OperandIn (i : Instr) (w : Word) : Prop :=
  match i with
  | .par _ d => rsvFieldD w = 0#20 ∧ d = dataField w
  | .parse _ n | .check _ n | .gen _ n | .inj _ n | .corr _ n => rsvFieldN w = 0#12 ∧ n = countField w

/-- A word decodes to the operation whose code, convention and operand it holds, and to no other (30_encoding R65 to
R68). -/
theorem decode_eq_ok_iff {w : Word} {i : Instr} :
    decode w = .ok i ↔ i.opcode = opField w ∧ i.conv = convField w ∧ i.OperandIn w := by
  constructor
  · intro h
    obtain ⟨hop, hconv, -⟩ := decode_fields h
    refine ⟨hop, hconv, ?_⟩
    obtain ⟨-, hrsv, rfl⟩ | ⟨-, hrsv, rfl⟩ | ⟨-, hrsv, rfl⟩ | ⟨-, hrsv, rfl⟩ | ⟨-, hrsv, rfl⟩ | ⟨-, hrsv, rfl⟩ :=
      decode_cases h <;> exact ⟨hrsv, rfl⟩
  · rintro ⟨hop, hconv, hoperand⟩
    unfold decode
    rw [← hop]
    cases i with
    | par c d =>
      obtain ⟨hrsv, rfl⟩ := hoperand
      exact decodeD_eq_ok_iff.2 ⟨hrsv, congrArg (Instr.par · _) hconv⟩
    | parse c n | check c n | gen c n | inj c n | corr c n =>
      obtain ⟨hrsv, rfl⟩ := hoperand
      obtain rfl : c = convField w := hconv
      exact decodeN_eq_ok_iff.2 ⟨hrsv, rfl⟩

/-- Format N: a count that fits the field is read back from it (30_encoding R65). -/
theorem countField_formatN (op : BitVec 3) (c : BitVec 1) {n : Nat} (hn : n ≤ Config.fieldMax) :
    countField (place 32 29 op ||| place 32 28 c ||| place 32 0 (BitVec.ofNat 16 n)) = n := by
  have hlt : n < 2 ^ 16 := Nat.lt_succ_of_le hn
  have hfield : (place 32 29 op ||| place 32 28 c ||| place 32 0 (BitVec.ofNat 16 n)).extractLsb' 0 16 =
      BitVec.ofNat 16 n := by
    apply BitVec.eq_of_getLsbD_eq
    intro j hj
    interval_cases j <;> simp [place_getElem, BitVec.getLsbD_eq_getElem]
  rw [countField, hfield, BitVec.toNat_ofNat, Nat.mod_eq_of_lt hlt]

/-- Format D: the data bits are read back from their field (30_encoding R65). -/
theorem dataField_formatD (op : BitVec 3) (c : BitVec 1) (d : DataBits) :
    dataField (place 32 29 op ||| place 32 28 c ||| place 32 0 d) = d := by
  apply BitVec.eq_of_getLsbD_eq
  intro j hj
  interval_cases j <;> simp [dataField, place_getElem]

/-- The word of a well-formed operation holds its operand. -/
theorem encode_operandIn {i : Instr} (hi : i.WellFormed) : i.OperandIn (encode i) := by
  cases i with
  | par c d => exact ⟨Laws.formatD_reserved _ _ d, (dataField_formatD _ _ d).symm⟩
  | parse c n | check c n | gen c n | inj c n | corr c n =>
    exact ⟨Laws.formatN_reserved _ _ n, (countField_formatN _ _ hi).symm⟩

/-- Settles O1: the word of an operation holds its code, its convention and its operand. -/
theorem decodeAfterEncodeIsIdentity : Obligations.DecodeAfterEncodeIsIdentity := fun i hi =>
  decode_eq_ok_iff.2 ⟨(encode_opField i).symm, (convField_eq_of_bit (encode_convField i)).symm, encode_operandIn hi⟩

/-- The reserved bits 27:`k` of a word are zero, bit by bit. -/
theorem reserved_eq_zero_iff {k : Nat} {w : Word} :
    w.extractLsb' k (28 - k) = 0#(28 - k) ↔ ∀ j, k ≤ j → j < 28 → w.getLsbD j = false := by
  constructor
  · intro h j hkj hj
    have hbit := congrArg (fun v => v.getLsbD (j - k)) h
    simpa [show j - k < 28 - k by omega, Nat.add_sub_cancel' hkj] using hbit
  · intro h
    apply BitVec.eq_of_getLsbD_eq
    intro j hj
    simp [hj, h (k + j) (by omega) (by omega)]

/-- A word whose reserved bits 27:`k` are zero is put together again from its fields. -/
theorem word_of_fields {k : Nat} {w : Word} (hk : k ≤ 28) (hrsv : w.extractLsb' k (28 - k) = 0#(28 - k)) :
    place 32 29 (opField w) ||| place 32 28 (BitVec.ofBool (convField w).bit) ||| place 32 0 (w.extractLsb' 0 k) =
      w := by
  have hzero := reserved_eq_zero_iff.1 hrsv
  apply BitVec.eq_of_getLsbD_eq
  intro j hj
  simp only [BitVec.getLsbD_or, place_getLsbD, convField_bit, opField]
  obtain h | ⟨hkj, h⟩ | rfl | h : j < k ∨ (k ≤ j ∧ j < 28) ∨ j = 28 ∨ 29 ≤ j := by omega
  · simp [h, hj, show ¬ 29 ≤ j by omega, show ¬ 28 ≤ j by omega]
  · simp [hzero j hkj h, show ¬ 29 ≤ j by omega, show ¬ 28 ≤ j by omega]
  · simp [show ¬ 28 < k by omega]
  · simp [h, hj, show j - 29 < 3 by omega, show j - 28 ≠ 0 by omega, show ¬ j < k by omega]

/-- Under the mask of a table row stand the `op` field and the reserved bits 27:`k` (30_encoding R67). -/
theorem and_mask_eq_iff {k : Nat} {w mask : Word} {op : BitVec 3} (hk : k ≤ 28)
    (hmask : ∀ j < 32, mask.getLsbD j = (decide (k ≤ j) && j != 28)) :
    w &&& mask = place 32 29 op ↔ op = opField w ∧ w.extractLsb' k (28 - k) = 0#(28 - k) := by
  rw [reserved_eq_zero_iff]
  constructor
  · intro h
    have hbit : ∀ j < 32, (w.getLsbD j && (decide (k ≤ j) && j != 28)) = (decide (29 ≤ j) && op.getLsbD (j - 29)) :=
      fun j hj => by rw [← hmask j hj, ← BitVec.getLsbD_and, h, place_getLsbD]; simp [hj]
    constructor
    · apply BitVec.eq_of_getLsbD_eq
      intro j hj
      have : 29 + j ≠ 28 := by omega
      simpa [opField, hj, show k ≤ 29 + j by omega, bne_iff_ne.2 this] using (hbit (29 + j) (by omega)).symm
    · intro j hkj hj
      simpa [hkj, hj.ne, show ¬ 29 ≤ j by omega] using hbit j (by omega)
  · rintro ⟨rfl, hzero⟩
    apply BitVec.eq_of_getLsbD_eq
    intro j hj
    rw [BitVec.getLsbD_and, hmask j hj, place_getLsbD]
    obtain h | ⟨hkj, h⟩ | rfl | h : j < k ∨ (k ≤ j ∧ j < 28) ∨ j = 28 ∨ 29 ≤ j := by omega
    · simp [show ¬ k ≤ j by omega, show ¬ 29 ≤ j by omega]
    · simp [hzero j hkj h, show ¬ 29 ≤ j by omega]
    · simp
    · simp [opField, hj, h, show k ≤ j by omega, show j ≠ 28 by omega, show j - 29 < 3 by omega]

/-- Settles O2: the word is put together again from the fields the operation was read from. -/
theorem encodeAfterDecodeIsIdentity : Obligations.EncodeAfterDecodeIsIdentity := by
  intro w i h
  obtain ⟨hop, hconv, hoperand⟩ := decode_eq_ok_iff.1 h
  cases i with
  | par c d =>
    obtain ⟨hrsv, rfl⟩ := hoperand
    refine ⟨trivial, ?_⟩
    rw [encode, hop, hconv]
    exact word_of_fields (k := 8) (by decide) hrsv
  | parse c n | check c n | gen c n | inj c n | corr c n =>
    obtain ⟨hrsv, rfl⟩ := hoperand
    refine ⟨Nat.le_of_lt_succ (BitVec.isLt _), ?_⟩
    rw [encode, hop, hconv, Instr.operandField, countField, BitVec.ofNat_toNat, BitVec.setWidth_eq]
    exact word_of_fields (k := 16) (by decide) hrsv

/-- A format N row is matched by its code and a zero reserved field (30_encoding R67). -/
theorem matches_formatN_iff {w : Word} {op : BitVec 3} :
    w &&& 0xEFFF0000#32 = place 32 29 op ↔ op = opField w ∧ rsvFieldN w = 0#12 :=
  and_mask_eq_iff (k := 16) (by decide) (by decide)

/-- A format D row is matched by its code and a zero reserved field (30_encoding R67). -/
theorem matches_formatD_iff {w : Word} {op : BitVec 3} :
    w &&& 0xEFFFFF00#32 = place 32 29 op ↔ op = opField w ∧ rsvFieldD w = 0#20 :=
  and_mask_eq_iff (k := 8) (by decide) (by decide)

/-- An operation of format N is selected exactly by the words that match its row. -/
theorem selects_formatN_iff {w : Word} {op : BitVec 3} (mk : Convention → Nat → Instr)
    (hmk : ∀ c n, decode w = .ok (mk c n) ↔
      op = opField w ∧ c = convField w ∧ rsvFieldN w = 0#12 ∧ n = countField w) :
    (∃ c n, decode w = .ok (mk c n)) ↔ w &&& 0xEFFF0000#32 = place 32 29 op := by
  simp [hmk, matches_formatN_iff]

/-- `PAR` is selected exactly by the words that match its row. -/
theorem selects_par_iff {w : Word} :
    (∃ c d, decode w = .ok (.par c d)) ↔ w &&& 0xEFFFFF00#32 = place 32 29 1#3 := by
  simp [decode_eq_ok_iff, matches_formatD_iff, Instr.opcode, Instr.conv, Instr.OperandIn]

/-- Settles O3: a row's match is its `op` code placed at bits 31:29. -/
theorem wordSelectsTableRow : Obligations.WordSelectsTableRow := fun _ =>
  ⟨selects_formatN_iff (op := 0#3) .parse fun _ _ => decode_eq_ok_iff, selects_par_iff,
    selects_formatN_iff (op := 2#3) .check fun _ _ => decode_eq_ok_iff,
    selects_formatN_iff (op := 3#3) .gen fun _ _ => decode_eq_ok_iff,
    selects_formatN_iff (op := 4#3) .inj fun _ _ => decode_eq_ok_iff,
    selects_formatN_iff (op := 5#3) .corr fun _ _ => decode_eq_ok_iff⟩

/-! ### Words that select no operation (30_encoding R77 items 1 and 2) -/

theorem decodeN_eq_error_iff {mk : Convention → Nat → Instr} {w : Word} {e : DecodeError} :
    decodeN mk w = .error e ↔ rsvFieldN w ≠ 0#12 ∧ e = .reservedBits := by
  unfold decodeN
  split <;> simp_all [eq_comm]

theorem decodeD_eq_error_iff {mk : Convention → DataBits → Instr} {w : Word} {e : DecodeError} :
    decodeD mk w = .error e ↔ rsvFieldD w ≠ 0#20 ∧ e = .reservedBits := by
  unfold decodeD
  split <;> simp_all [eq_comm]

/-- All the ways a word selects no operation: a reserved `op` code, or a reserved field that is not zero in the format
of its `op` code. -/
theorem decode_eq_error_iff {w : Word} {e : DecodeError} :
    decode w = .error e ↔
      ((opField w).toNat = 6 ∨ (opField w).toNat = 7) ∧ e = .reservedOp ∨
      ((opField w).toNat = 1 ∧ rsvFieldD w ≠ 0#20 ∨
        (opField w).toNat ≠ 1 ∧ (opField w).toNat ≤ 5 ∧ rsvFieldN w ≠ 0#12) ∧ e = .reservedBits := by
  have hlt : (opField w).toNat < 8 := BitVec.isLt _
  unfold decode
  generalize (opField w).toNat = op at hlt ⊢
  obtain rfl | hN | hreserved : op = 1 ∨ (op = 0 ∨ op = 2 ∨ op = 3 ∨ op = 4 ∨ op = 5) ∨ op = 6 ∨ op = 7 := by omega
  · simp [decodeD_eq_error_iff]
  · obtain rfl | rfl | rfl | rfl | rfl := hN <;> simp [decodeN_eq_error_iff]
  · obtain rfl | rfl := hreserved <;> simp [eq_comm]

/-- Settles O5: the two names are the two ways a word selects no operation. -/
theorem reservedWordsRejectedByName : Obligations.ReservedWordsRejectedByName := fun w =>
  ⟨by simp [decode_eq_error_iff, opField], by simp [decode_eq_error_iff, opField, rsvFieldN, rsvFieldD]⟩

end Sys2Proof

/-! ### Which requests are refused (30_encoding R64, R77, R81) -/

namespace Sys2Proof.Machine

/-- Settles O4: a word that decodes matches the row of its operation. -/
theorem unmatchedWordRefused : Obligations.UnmatchedWordRefused := by
  intro s r rest hr hN hD
  refine step_answers_refusal hr fun i hdec _ => ?_
  obtain ⟨hparse, hpar, hcheck, hgen, hinj, hcorr⟩ := wordSelectsTableRow r.word
  cases i with
  | parse c n => exact hN (by simp [hparse.1 ⟨c, n, hdec⟩])
  | par c d => exact hD (hpar.1 ⟨c, d, hdec⟩)
  | check c n => exact hN (by simp [hcheck.1 ⟨c, n, hdec⟩])
  | gen c n => exact hN (by simp [hgen.1 ⟨c, n, hdec⟩])
  | inj c n => exact hN (by simp [hinj.1 ⟨c, n, hdec⟩])
  | corr c n => exact hN (by simp [hcorr.1 ⟨c, n, hdec⟩])

/-- A word that R77's items 1 and 2 do not reject decodes. -/
theorem exists_decode_of_not_illegalByR77 {r : Request} (h : ¬ r.IllegalByR77) : ∃ i, decode r.word = .ok i := by
  cases hdec : decode r.word with
  | ok i => exact ⟨i, rfl⟩
  | error e =>
    obtain ⟨hop, -⟩ | ⟨⟨hop, hrsv⟩ | ⟨hne, hle, hrsv⟩, -⟩ := decode_eq_error_iff.1 hdec
    · exact absurd (.inl hop) h
    · exact absurd (.inr (.inl ⟨hop, hrsv⟩)) h
    · have hop : (opField r.word).toNat = 0 ∨ (opField r.word).toNat = 2 ∨ (opField r.word).toNat = 3 ∨
          (opField r.word).toNat = 4 ∨ (opField r.word).toNat = 5 := by omega
      exact absurd (.inr (.inr (.inl ⟨hop, hrsv⟩))) h

/-- Of a request whose word decodes, the model's legality is R77's items 3 and 4, the types of R64 and the machine's
limit. -/
theorem illegal_eq_none_iff_of_decode {cfg : Config} {r : Request} {i : Instr} (hdec : decode r.word = .ok i) :
    illegal cfg i r.payload = none ↔ ¬ r.IllegalByR77 ∧ r.ItemsAsR64 ∧ r.CountFits cfg := by
  have hcases := decode_cases hdec
  simp only [opField, rsvFieldN, rsvFieldD, countField] at hcases
  rw [illegal_eq_none_iff]
  simp only [Request.IllegalByR77, Request.ItemsAsR64, Request.CountFits]
  obtain ⟨hop, hrsv, rfl⟩ | ⟨hop, hrsv, rfl⟩ | ⟨hop, hrsv, rfl⟩ | ⟨hop, hrsv, rfl⟩ | ⟨hop, hrsv, rfl⟩ |
    ⟨hop, hrsv, rfl⟩ := hcases <;>
  simp [hop, hrsv, countOf, requiredItems, zeroCountForbidden, itemsOfType, -BitVec.extractLsb'_toNat, and_comm,
    and_assoc, and_left_comm]

/-- Settles O10: an operation decoded from such a request is not legal, and a word that does not decode is refused. -/
theorem illegalRequestRefused : Obligations.IllegalRequestRefused := by
  intro s r rest hr hill
  refine step_answers_refusal hr fun i hdec hlegal => ?_
  obtain ⟨hnot, -⟩ := (illegal_eq_none_iff_of_decode hdec).1 hlegal
  exact hnot hill

/-- Settles O13: an operation with an item of another type is not legal. -/
theorem wrongItemTypeRefused : Obligations.WrongItemTypeRefused := by
  intro s r rest hr hitems
  refine step_answers_refusal hr fun i hdec hlegal => ?_
  obtain ⟨-, hitems', -⟩ := (illegal_eq_none_iff_of_decode hdec).1 hlegal
  exact hitems hitems'

/-- From `s` to `t` the operation `i` delivered one response, and it is not the refusal. -/
def State.Completes (s : State) (i : Instr) (t : State) : Prop :=
  ∃ (st : Status) (m : Nat) (items : List Item),
    t.received = s.received ++ [{ word := rspWord i.opcode i.conv st m, payload := items }] ∧ st ≠ .illegalRequest

/-- `PARSE` completes with frames or with either error. -/
theorem runParse_completes (i : Instr) (s : State) : s.Completes i (runParse i s) := by
  obtain ⟨fs, -, hrun⟩ | ⟨-, hrun⟩ | ⟨t, -, hrun⟩ := runParse_cases i s <;> rw [hrun] <;>
    exact ⟨_, _, _, rfl, nofun⟩

/-- `INJ` completes with one flip or with `EmptyFrameSet`. -/
theorem runInj_completes (i : Instr) (s : State) : s.Completes i (runInj i s) := by
  obtain ⟨-, hrun⟩ | ⟨-, hrun⟩ := runInj_cases i s <;> rw [hrun] <;> exact ⟨_, _, _, rfl, nofun⟩

/-- Executing a legal operation completes it, whichever it is. -/
theorem exec_completes_of_legal {i : Instr} {s : State} (hl : illegal s.config i s.payload = none) :
    ∃ t, exec i s = .next t ∧ s.Completes i t := by
  rw [exec_eq_serve, serve_of_legal _ hl]
  refine ⟨_, rfl, ?_⟩
  cases i with
  | parse conv n => exact runParse_completes _ s
  | inj conv n => exact runInj_completes _ s
  | par | check | gen | corr => exact ⟨_, _, _, rfl, nofun⟩

/-- Only the refusal has status 4 (60_exceptions R170). -/
theorem Status.code_toNat_ne_four {st : Status} (h : st ≠ .illegalRequest) : st.code.toNat ≠ 4 := by
  cases st <;> simp_all [Status.code]

/-- Settles O11: the word decodes, the decoded operation is legal, and a legal operation completes. -/
theorem legalRequestReachesOperation : Obligations.LegalRequestReachesOperation := by
  intro s r rest hr h77 hitems hfit
  obtain ⟨i, hdec⟩ := exists_decode_of_not_illegalByR77 h77
  have hlegal : illegal s.config i r.payload = none := (illegal_eq_none_iff_of_decode hdec).2 ⟨h77, hitems, hfit⟩
  obtain ⟨t, hexec, st, m, items, hrec, hst⟩ := exec_completes_of_legal (s := s.take r rest) hlegal
  refine ⟨t, _, (step_of_decode_ok hr hdec).trans hexec, hrec, ?_⟩
  rw [rspWord_statusField]
  exact Status.code_toNat_ne_four hst

/-! ### `PARSE` and `INJ` under either convention (30_encoding R66) -/

/-- The convention stands in bit 28 of a response word and nowhere else (30_encoding R74). -/
theorem rspWord_low_bits (op : BitVec 3) (c c' : Convention) (st : Status) (m : Nat) :
    (rspWord op c st m).extractLsb' 0 28 = (rspWord op c' st m).extractLsb' 0 28 := by
  apply BitVec.eq_of_getLsbD_eq
  intro j hj
  simp [rspWord, place_getLsbD, hj, show ¬ 28 ≤ j by omega]

/-- An operation that is legal and runs alike under either convention answers alike, but for the convention echoed. -/
theorem serve_ignores_conv {op : Convention → Instr} {s : State} {run : Instr → State → State} {code : BitVec 3}
    (hcode : ∀ c, (op c).opcode = code) (hconv : ∀ c, (op c).conv = c)
    (hlegal : ∀ c, illegal s.config (op c) s.payload = illegal s.config (op .even) s.payload)
    (hrun : ∃ st m items k, ∀ i, Answered s (run i s) { word := rspWord i.opcode i.conv st m, payload := items } k) :
    ∃ st m items k, ∀ c, ∃ t, serve (op c) s (run (op c)) = .next t ∧
      Answered s t { word := rspWord code c st m, payload := items } k := by
  by_cases hl : illegal s.config (op .even) s.payload = none
  · obtain ⟨st, m, items, k, hrun⟩ := hrun
    refine ⟨st, m, items, k, fun c => ⟨_, serve_of_legal _ ((hlegal c).trans hl), ?_⟩⟩
    simpa only [hcode, hconv] using hrun (op c)
  · refine ⟨.illegalRequest, 0, [], 0, fun c => ⟨_, serve_of_illegal _ (hlegal c ▸ hl), ?_⟩⟩
    rw [hcode, hconv]
    exact answered_refuse s code c

/-- What `PARSE` answers does not depend on which request it echoes. -/
theorem runParse_answered (s : State) :
    ∃ st m items k, ∀ i, Answered s (runParse i s) { word := rspWord i.opcode i.conv st m, payload := items } k := by
  unfold runParse
  rcases parse s.config (charsOf s.payload) with (_ | t) | fs
  · exact ⟨_, _, _, _, fun i => answered_raise s i _ _⟩
  · exact ⟨_, _, _, _, fun i => answered_raise s i _ _⟩
  · exact ⟨_, _, _, _, fun i => answered_respond s i _ _ _⟩

/-- What `INJ` answers does not depend on which request it echoes. -/
theorem runInj_answered (s : State) :
    ∃ st m items k, ∀ i, Answered s (runInj i s) { word := rspWord i.opcode i.conv st m, payload := items } k := by
  unfold runInj
  by_cases h : (framesOf s.payload).length = 0
  · simp only [if_pos h]
    exact ⟨_, _, _, _, fun i => answered_raise s i _ _⟩
  · simp only [if_neg h]
    exact ⟨_, _, _, _, fun i => answered_consume_respond s _ i _ _ _⟩

/-- Executing `PARSE` or `INJ` answers alike under either convention, but for the convention echoed. -/
theorem exec_ignores_conv {op : Convention → Nat → Instr} (hop : op = .parse ∨ op = .inj) (n : Nat) (s : State) :
    ∃ code st m items k, ∀ c, ∃ t, exec (op c n) s = .next t ∧
      Answered s t { word := rspWord code c st m, payload := items } k := by
  obtain rfl | rfl := hop
  · exact ⟨0#3, serve_ignores_conv (op := (.parse · n)) (fun _ => rfl) (fun _ => rfl) (fun _ => rfl)
      (runParse_answered s)⟩
  · exact ⟨4#3, serve_ignores_conv (op := (.inj · n)) (fun _ => rfl) (fun _ => rfl) (fun _ => rfl)
      (runInj_answered s)⟩

/-- Settles O17: the two responses are built from one status, count and payload. -/
theorem conventionIgnoredByParseAndInject : Obligations.ConventionIgnoredByParseAndInject := by
  intro c c' n s op hop
  obtain ⟨code, st, m, items, k, h⟩ := exec_ignores_conv hop n s
  obtain ⟨t, hexec, hans⟩ := h c
  obtain ⟨t', hexec', hans'⟩ := h c'
  exact ⟨t, t', _, _, k, hexec, hexec', hans, hans', rfl, rspWord_low_bits code c c' st m,
    rspWord_convBit code c st m, rspWord_convBit code c' st m⟩

/-! ### Legal requests for `PARSE` (40_parse R93, 30_encoding R84) -/

/-- A count within the machine's limit fits its field of the response (20_memory R49). -/
theorem carries_of_le_maxItems {cfg : Config} {m : Nat} (hm : m ≤ cfg.maxItems) (i : Instr) (st : Status)
    (items : List Item) :
    ({ word := rspWord i.opcode i.conv st m, payload := items } : Response).Carries i.opcode.toNat i.conv.bit
      st.code.toNat m items :=
  rspWord_carries _ _ _ _ _ (hm.trans_lt (maxItems_lt cfg))

/-- A parsed text is answered with its frames. -/
theorem runParse_of_ok {i : Instr} {s : State} {fs : List Frame} (h : parse s.config (charsOf s.payload) = .ok fs) :
    runParse i s = s.respond i .ok fs.length (fs.map .frame) := by
  rw [runParse, h]
  rfl

/-- A text whose tokens are all valid is parsed to their frames (40_parse R93). -/
theorem parse_of_valid {cfg : Config} {text : List CharCode} (hne : tokens cfg text ≠ [])
    (hvalid : ∀ t ∈ tokens cfg text, IsValidToken t) : parse cfg text = .ok ((tokens cfg text).map frameOf) :=
  (parse_eq_parseTokens hne).trans (parseTokens_of_valid _ hvalid)

/-- Settles O28: the frames are those of the tokens, each the frame of its token. -/
theorem parseOfValidTextReturnsFrames : Obligations.ParseOfValidTextReturnsFrames := by
  intro conv text s hp hlen hne hvalid
  have hparse : parse s.config (charsOf s.payload) = .ok ((tokens s.config text).map frameOf) := by
    rw [hp, charsOf_map_char]
    exact parse_of_valid hne hvalid
  have hm : ((tokens s.config text).map frameOf).length ≤ s.config.maxItems :=
    ((List.length_map _).trans_le (tokens_length_le s.config text)).trans hlen
  refine ⟨_, _, _, exec_parse_of_legal (hp ▸ parse_legal conv hlen), runParse_of_ok hparse ▸ answered_respond s _ _ _ _,
    carries_of_le_maxItems hm (.parse conv text.length) .ok _, ?_⟩
  exact List.forall₂_map_right_iff.2 (List.forall₂_same.2 fun t ht => frameOf_isFrameOf t (hvalid t ht))

/-- The count of a text within the machine's limit fits its field (30_encoding R65). -/
theorem maxItems_le_fieldMax (cfg : Config) : cfg.maxItems ≤ Config.fieldMax :=
  Nat.le_of_lt_succ (maxItems_lt cfg)

/-- The step of the caller's `PARSE` request on a text within the machine's limit (30_encoding R82). -/
theorem step_issue_parseRequest {s : State} {text : List CharCode} (h : text.length ≤ s.config.maxItems) :
    step (s.issue (parseRequest text)) =
      .next (runParse (.parse .even text.length) { s with payload := text.map .char }) := by
  have hdec : decode (parseRequest text).word = .ok (.parse .even text.length) :=
    decodeAfterEncodeIsIdentity _ (h.trans (maxItems_le_fieldMax s.config))
  have hstep : step (s.issue (parseRequest text)) =
      exec (.parse .even text.length) { s with payload := text.map .char } :=
    step_of_decode_ok (State.issue_callerProgram s _) hdec
  rw [hstep]
  exact exec_parse_of_legal (s := { s with payload := text.map .char }) (parse_legal .even h)

/-- The caller reads from the response to `PARSE` the frames of the parse, or that it failed. -/
theorem runParse_framesIfOk (i : Instr) (s : State) :
    ∃ a, (runParse i s).received = s.received ++ [a] ∧
      a.framesIfOk = (parse s.config (charsOf s.payload)).toOption := by
  obtain ⟨fs, hp, hrun⟩ | ⟨hp, hrun⟩ | ⟨t, hp, hrun⟩ := runParse_cases i s <;> rw [hp, hrun] <;>
    exact ⟨_, rfl, by simp [Response.framesIfOk, Status.code, Except.toOption]⟩

/-- Where the step of `PARSE` delivered frames, the composition issues `g` on them (30_encoding R84). -/
theorem composeWithParse_of_frames {g : List Frame → Request} {text : List CharCode} {s t : State} {a : Response}
    {fs : List Frame} (hstep : step (s.issue (parseRequest text)) = .next t) (ha : t.received = s.received ++ [a])
    (hfs : a.framesIfOk = some fs) : composeWithParse g text s = step (t.issue (g fs)) := by
  simp [composeWithParse, hstep, ha, hfs]

/-- Where the step of `PARSE` delivered an error, the composition ends there (30_encoding R84). -/
theorem composeWithParse_of_no_frames {g : List Frame → Request} {text : List CharCode} {s t : State} {a : Response}
    (hstep : step (s.issue (parseRequest text)) = .next t) (ha : t.received = s.received ++ [a])
    (hfs : a.framesIfOk = none) : composeWithParse g text s = .next t := by
  simp [composeWithParse, hstep, ha, hfs]

/-- Settles O35: what the caller reads from `PARSE`'s response decides whether `g` is issued. -/
theorem compositionIsParseThenOperation : Obligations.CompositionIsParseThenOperation := by
  intro g text s hlen
  have hstep := step_issue_parseRequest hlen
  obtain ⟨a, ha, hread⟩ := runParse_framesIfOk (.parse .even text.length) { s with payload := text.map .char }
  rw [charsOf_map_char] at hread
  constructor
  · intro fs hp
    exact ⟨_, hstep, composeWithParse_of_frames hstep ha (by rw [hread, hp]; rfl)⟩
  · intro e hp
    rw [composeWithParse_of_no_frames hstep ha (by rw [hread, hp]; rfl), hstep]

end Sys2Proof.Machine


/-! ### Sets of frames: `CHECK`, `INJ` and `CORR` (42_check, 44_inject, 45_correct) -/

namespace Sys2Proof.Machine

/-- A non-empty set of frames within the machine's limit is a legal payload of an operation on so many frames. -/
theorem frames_legal {cfg : Config} {i : Instr} {fs : List Frame} (hcount : countOf i = fs.length)
    (hreq : requiredItems i = fs.length) (htype : itemsOfType i (fs.map .frame) = (fs.map Item.frame).all Item.isFrame)
    (hzero : zeroCountForbidden i = true → fs.length = 0) (hpos : 1 ≤ fs.length) (hle : fs.length ≤ cfg.maxItems) :
    illegal cfg i (fs.map .frame) = none :=
  (illegal_eq_none_iff _ _ _).2 ⟨hcount.trans_le hle, (List.length_map _).trans hreq.symm,
    Bool.eq_false_iff.2 fun h => absurd (hzero h) (by omega), htype.trans (all_isFrame_map fs)⟩

/-- `m` of `CHECK` is the number of frames whose expected and received bits differ (42_check R122). -/
theorem mismatchCount_checkResults (conv : Convention) (fs : List Frame) :
    mismatchCount (checkResults conv fs) = fs.countP (mismatchBit conv) :=
  List.countP_map

/-- The `CHK` item of a frame describes it (30_encoding R71, 42_check R120). -/
theorem chkWord_describes (conv : Convention) (f : Frame) : ChkDescribes conv f (chkWord conv (checkFrame conv f)) :=
  ⟨chkWord_dataBits _ _, chkWord_received _ _, chkWord_expected _ _, chkWord_mismatch _ _, chkWord_conv _ _,
    chkWord_ones _ _⟩

/-- Executing `CHECK` on a legal set answers the mismatch count and the items of its results. -/
theorem exec_check_frames (conv : Convention) {fs : List Frame} {s : State} (hp : s.payload = fs.map .frame)
    (hpos : 1 ≤ fs.length) (hle : fs.length ≤ s.config.maxItems) :
    exec (.check conv fs.length) s = .next (s.respond (.check conv fs.length) .ok (fs.countP (mismatchBit conv))
      ((fs.map fun f => chkWord conv (checkFrame conv f)).map .chk)) := by
  have hlegal : illegal s.config (.check conv fs.length) s.payload = none :=
    hp ▸ frames_legal rfl rfl rfl (by simp [zeroCountForbidden]) hpos hle
  rw [exec_eq_serve, serve_of_legal _ hlegal]
  simp [runCheck, hp, ← mismatchCount_checkResults, checkResults, Function.comp_def]

/-- Settles O36: each item describes the frame it was made from. -/
theorem checkReportsEveryFrame : Obligations.CheckReportsEveryFrame := by
  intro conv fs s hp hpos hle
  have hm : fs.countP (mismatchBit conv) ≤ s.config.maxItems := List.countP_le_length.trans hle
  refine ⟨_, _, _, exec_check_frames conv hp hpos hle, answered_respond s _ _ _ _,
    carries_of_le_maxItems hm _ .ok _, ?_⟩
  exact List.forall₂_map_right_iff.2 (List.forall₂_same.2 fun f _ => chkWord_describes conv f)

/-- Executing `CORR` on a legal set answers the size of the `CorrectionSet` and the corrected frames. -/
theorem exec_corr_frames (conv : Convention) {fs : List Frame} {s : State} (hp : s.payload = fs.map .frame)
    (hpos : 1 ≤ fs.length) (hle : fs.length ≤ s.config.maxItems) :
    exec (.corr conv fs.length) s = .next (s.respond (.corr conv fs.length) .ok (fs.countP (changedBit conv))
      ((fs.map fun f => cframeWord (changedBit conv f) (correctFrame conv f)).map .cframe)) := by
  have hlegal : illegal s.config (.corr conv fs.length) s.payload = none :=
    hp ▸ frames_legal rfl rfl rfl (by simp [zeroCountForbidden]) hpos hle
  rw [exec_eq_serve, serve_of_legal _ hlegal]
  simp [runCorr, hp, correctionSet_length, correctionItems_eq, Function.comp_def]

/-- A corrected frame keeps the data bits and has the parity bit the convention calls for (45_correct R160, R162). -/
theorem correctFrame_isCorrectionOf (conv : Convention) (f : Frame) : IsCorrectionOf conv f (correctFrame conv f) :=
  ⟨frameOfParts_data _ _, frameOfParts_par _ _⟩

/-- Settles O51: each item holds the corrected frame it was made from, and the `CorrectionSet` its changed frames. -/
theorem correctRecomputesEveryParityBit : Obligations.CorrectRecomputesEveryParityBit := by
  intro conv fs s hp hpos hle
  have hm : fs.countP (changedBit conv) ≤ s.config.maxItems := List.countP_le_length.trans hle
  refine ⟨_, _, _, exec_corr_frames conv hp hpos hle, answered_respond s _ _ _ _, carries_of_le_maxItems hm _ .ok _,
    ?_, fun i => ?_⟩
  · refine List.forall₂_map_right_iff.2 (List.forall₂_same.2 fun f _ => ⟨?_, cframeWord_changed _ _⟩)
    rw [cframeWord_frame]
    exact correctFrame_isCorrectionOf conv f
  · rw [mem_correctionSet]
    exact exists_congr fun f => and_congr_right fun _ => bne_iff_ne

/-- A flip is an exclusive-or with the bit's place value (44_inject R147). -/
theorem flipBit_eq_xor (f : Frame) {j : Nat} (hj : j < 9) : flipBit f j = f ^^^ (1#9 <<< (8 - j)) := by
  apply BitVec.eq_of_getMsbD_eq
  intro i hi
  have hmask : (1#9 <<< (8 - j)).getMsbD i = decide (i = j) := by
    interval_cases j <;> interval_cases i <;> rfl
  rw [flipBit_getMsbD f j i hj, BitVec.getMsbD_xor, hmask]

/-- Executing `INJ` on a legal set flips the drawn location and names it. -/
theorem exec_inj_frames (conv : Convention) {fs : List Frame} {s : State} (hp : s.payload = fs.map .frame)
    (hpos : 1 ≤ fs.length) (hle : fs.length ≤ s.config.maxItems) :
    exec (.inj conv fs.length) s = .next ((s.consume 2).respond (.inj conv fs.length) .ok fs.length
      ((flipAt fs (drawnMutation fs.length s)).map .frame ++ [.mutation (mutWord (drawnMutation fs.length s))])) := by
  have hlegal : illegal s.config (.inj conv fs.length) s.payload = none :=
    hp ▸ frames_legal rfl rfl rfl nofun hpos hle
  rw [exec_eq_serve, serve_of_legal _ hlegal]
  simp [runInj, hp, List.length_pos_iff.1 hpos]

/-- Settles O46: the location named in the `MUT` item is the one flipped, and flipping is an exclusive-or. -/
theorem injectFlipsTheDrawnBit : Obligations.InjectFlipsTheDrawnBit := by
  intro conv fs s hp hpos hle
  have hi : s.randIndex 0 fs.length < fs.length := s.randIndex_lt 0 hpos
  have hj : s.randIndex 1 9 < 9 := s.randIndex_lt 1 (by decide)
  refine ⟨_, _, _, _, _, _, exec_inj_frames conv hp hpos hle, answered_consume_respond s 2 _ _ _ _, rfl, rfl, hi, hj,
    carries_of_le_maxItems hle (.inj conv fs.length) .ok _, mutWord_frameIndex _ ?_, mutWord_zeroField _,
    mutWord_bitIndex _ (hj.trans (by decide)), flipAt_length _ _, fun q f hf => ?_⟩
  · exact hi.trans (hle.trans_lt (maxItems_lt s.config))
  · rw [flipAt_getElem?, hf, Option.map_some, ← flipBit_eq_xor f hj]
    rfl

/-! ### Worked words and the state after reset -/

/-- Settles O6: ten words, each decoded by evaluation. -/
theorem workedRequestWordsDecode : Obligations.WorkedRequestWordsDecode := by
  unfold Obligations.WorkedRequestWordsDecode
  decide

/-- Settles O20: the default `WS` holds no digit, and no request is in progress and no response delivered. -/
theorem invariantHoldsAtReset : Obligations.InvariantHoldsAtReset :=
  ⟨by decide, State.reset_payload, fun _ hr => absurd hr List.not_mem_nil⟩

end Sys2Proof.Machine

/-! ### `PARSE` where it fails (40_parse R94 to R96) -/

namespace Sys2Proof.Machine

/-- A text of whitespace only has no token (40_parse R91). -/
theorem tokens_of_blank {cfg : Config} {text : List CharCode} (h : ∀ c ∈ text, c ∈ cfg.ws) :
    tokens cfg text = [] := by
  induction text with
  | nil => rfl
  | cons c text ih =>
    obtain ⟨hc, htext⟩ := List.forall_mem_cons.1 h
    rw [tokens_cons_ws cfg c text hc, ih htext]

/-- A text without tokens is answered with `EmptyInput`. -/
theorem runParse_of_emptyInput {i : Instr} {s : State}
    (h : parse s.config (charsOf s.payload) = .error .emptyInput) : runParse i s = s.raise i .emptyInput [] := by
  rw [runParse, h]
  rfl

/-- A text with an invalid token is answered with that token. -/
theorem runParse_of_malformedFrame {i : Instr} {s : State} {t : Token}
    (h : parse s.config (charsOf s.payload) = .error (.malformedFrame t)) :
    runParse i s = s.raise i .malformedFrame (t.map .char) := by
  rw [runParse, h]
  rfl

/-- Settles O29: a text of whitespace only has no token, so `EmptyInput` is raised without information. -/
theorem parseOfBlankTextFailsEmptyInput : Obligations.ParseOfBlankTextFailsEmptyInput := by
  intro conv text s hp hlen hblank
  have hparse : parse s.config (charsOf s.payload) = .error .emptyInput := by
    rw [hp, charsOf_map_char]
    exact parse_eq_emptyInput (tokens_of_blank hblank)
  exact ⟨_, _, exec_parse_of_legal (hp ▸ parse_legal conv hlen),
    runParse_of_emptyInput hparse ▸ answered_raise s _ _ _,
    carries_of_le_maxItems (Nat.zero_le s.config.maxItems) (.parse conv text.length) .emptyInput []⟩

/-- A text whose leftmost invalid token is `bad` is parsed to that error (40_parse R95). -/
theorem parse_of_invalid {cfg : Config} {text : List CharCode} {before after : List Token} {bad : Token}
    (htok : tokens cfg text = before ++ bad :: after) (hvalid : ∀ t ∈ before, IsValidToken t)
    (hbad : ¬ IsValidToken bad) : parse cfg text = .error (.malformedFrame bad) := by
  rw [parse_eq_parseTokens (by simp [htok]), htok, parseTokens_of_invalid before after bad hvalid hbad]

/-- Settles O30: the loop over the tokens ends at the first invalid one, which is no longer than the text. -/
theorem parseReportsLeftmostInvalidToken : Obligations.ParseReportsLeftmostInvalidToken := by
  intro conv text s before after bad hp hlen htok hvalid hbad
  have hparse : parse s.config (charsOf s.payload) = .error (.malformedFrame bad) := by
    rw [hp, charsOf_map_char]
    exact parse_of_invalid htok hvalid hbad
  have hm : (bad.map Item.char).length ≤ s.config.maxItems :=
    (List.length_map _).trans_le ((token_length_le s.config text (by simp [htok])).trans hlen)
  have hcarries := carries_of_le_maxItems hm (.parse conv text.length) .malformedFrame (bad.map .char)
  exact ⟨_, _, exec_parse_of_legal (hp ▸ parse_legal conv hlen),
    runParse_of_malformedFrame hparse ▸ answered_raise s _ _ _, by rwa [List.length_map] at hcarries ⊢⟩

end Sys2Proof.Machine

/-! ### The response read off the reference parser's registers (40_parse R102) -/

namespace Sys2Proof.Machine

section Registers

variable {cfg : Config} {w : Nat} {r : ParserRegs w}

/-- The current token and the token a latched error names lie within the part of the text already read
(40_parse R100, the registers `start`, `len` and `err`). -/
structure ParserRegs.WithinRead (r : ParserRegs w) : Prop where
  token : r.start.toNat + r.len.toNat ≤ r.pos.toNat
  error : ∀ b l, r.err = some (b, l) → b.toNat + l.toNat ≤ r.pos.toNat

/-- Nothing is read at the start. -/
theorem parserInit_withinRead (w : Nat) : (parserInit w).WithinRead :=
  ⟨Nat.le_refl 0, nofun⟩

@[simp] theorem parserEndToken_pos (r : ParserRegs w) : (parserEndToken r).pos = r.pos := by
  unfold parserEndToken
  split <;> rfl

@[simp] theorem parserAddChar_pos (ch : CharCode) (r : ParserRegs w) : (parserAddChar ch r).pos = r.pos := by
  rw [parserAddChar_eq]

/-- The end of a token latches at most the token itself. -/
theorem ParserRegs.WithinRead.endToken (h : r.WithinRead) : (parserEndToken r).WithinRead := by
  have hstart : r.start.toNat ≤ r.pos.toNat := (Nat.le_add_right _ _).trans h.token
  cases hrej : r.bad || r.len.toNat != 9 with
  | false =>
    rw [parserEndToken_of_accepted hrej]
    exact ⟨hstart, h.error⟩
  | true =>
    refine ⟨?_, fun b l herr => ?_⟩
    · simpa [parserEndToken, hrej] using hstart
    · rw [parserEndToken_err_of_rejected hrej] at herr
      cases herr
      rw [parserEndToken_pos]
      exact h.token

/-- One more, where it fits the register. -/
theorem toNat_add_one_of_lt {x : BitVec w} (h : x.toNat + 1 < 2 ^ w) : (x + 1#w).toNat = x.toNat + 1 := by
  have hone : (1#w).toNat = 1 := Nat.mod_eq_of_lt (by omega)
  rw [BitVec.toNat_add_of_lt (by rwa [hone]), hone]

/-- Reading on keeps what is latched within the part read. -/
theorem ParserRegs.WithinRead.advance (h : r.WithinRead) (hlt : r.pos.toNat + 1 < 2 ^ w) :
    ({ r with pos := r.pos + 1#w } : ParserRegs w).WithinRead := by
  have hpos := toNat_add_one_of_lt hlt
  exact ⟨by have := h.token; simp only; omega, fun b l herr => by have := h.error b l herr; simp only; omega⟩

/-- A character that joins a token lengthens it by one, and `pos` moves with it. -/
theorem ParserRegs.WithinRead.addChar (h : r.WithinRead) (hlt : r.pos.toNat + 1 < 2 ^ w) (ch : CharCode) :
    ({ parserAddChar ch r with pos := (parserAddChar ch r).pos + 1#w } : ParserRegs w).WithinRead := by
  have htoken := h.token
  have hpos := toNat_add_one_of_lt hlt
  have hlen : (r.len + 1#w).toNat = r.len.toNat + 1 := toNat_add_one_of_lt (by omega)
  rw [parserAddChar_eq]
  refine ⟨?_, fun b l herr => (h.error b l herr).trans (by simp only; omega)⟩
  simp only [hlen, hpos]
  split_ifs with hzero
  · have : r.len.toNat = 0 := by rw [hzero, BitVec.toNat_zero]
    omega
  · omega

/-- Every step of the reference parser keeps its token and its error within the part read. -/
theorem ParserRegs.WithinRead.step (h : r.WithinRead) (hlt : r.pos.toNat + 1 < 2 ^ w) (ch : CharCode) :
    (parserStep cfg r ch).WithinRead := by
  by_cases herr : r.err = none
  · by_cases hch : ch ∈ cfg.ws
    · by_cases hlen : r.len = 0#w
      · exact parserStep_of_ws_between herr hch hlen ▸ h.advance hlt
      · exact parserStep_of_ws_in_token herr hch hlen ▸ h.endToken.advance (by rwa [parserEndToken_pos])
    · exact parserStep_of_char herr hch ▸ h.addChar hlt ch
  · exact parserStep_of_err herr ▸ h.advance hlt

/-- Each character read moves `pos` by one. -/
theorem parserStep_pos (cfg : Config) (r : ParserRegs w) (ch : CharCode) :
    (parserStep cfg r ch).pos = r.pos + 1#w := by
  unfold parserStep
  split_ifs <;> simp

/-- After the text, `pos` has moved over all of it, and the token and the error lie within it. -/
theorem ParserRegs.WithinRead.foldl {text : List CharCode} (h : r.WithinRead)
    (hlt : r.pos.toNat + text.length < 2 ^ w) :
    (text.foldl (parserStep cfg) r).WithinRead ∧
      (text.foldl (parserStep cfg) r).pos.toNat = r.pos.toNat + text.length := by
  induction text generalizing r with
  | nil => exact ⟨h, rfl⟩
  | cons c text ih =>
    simp only [List.length_cons] at hlt ⊢
    have hone : r.pos.toNat + 1 < 2 ^ w := by omega
    have hpos : (parserStep cfg r c).pos.toNat = r.pos.toNat + 1 := by
      rw [parserStep_pos, toNat_add_one_of_lt hone]
    obtain ⟨hwithin, hend⟩ := ih (h.step (cfg := cfg) hone c) (by omega)
    exact ⟨hwithin, by rw [List.foldl_cons]; omega⟩

/-- The end of the text moves nothing, and ends a token in progress. -/
theorem ParserRegs.WithinRead.finish (h : r.WithinRead) :
    (parserFinish r).WithinRead ∧ (parserFinish r).pos = r.pos := by
  unfold parserFinish
  split_ifs
  · exact ⟨h.endToken, parserEndToken_pos r⟩
  · exact ⟨h, rfl⟩

end Registers

/-- The registers the reference parser ends with (40_parse R102). -/
def finalRegs (cfg : Config) (text : List CharCode) : ParserRegs cfg.cntW.val :=
  parserFinish (text.foldl (parserStep cfg) (parserInit cfg.cntW.val))

theorem serialParse_eq (cfg : Config) (text : List CharCode) :
    serialParse cfg text = parserResult text (finalRegs cfg text) := rfl

/-- The token a final error names lies within the text (40_parse R102). -/
theorem finalRegs_err_within {cfg : Config} {text : List CharCode} {b l : BitVec cfg.cntW.val}
    (hlen : text.length ≤ cfg.maxItems) (herr : (finalRegs cfg text).err = some (b, l)) :
    b.toNat + l.toNat ≤ text.length := by
  have hlt : text.length < 2 ^ cfg.cntW.val :=
    Nat.lt_of_le_sub_one (Nat.two_pow_pos _) hlen
  obtain ⟨hfold, hpos⟩ := (parserInit_withinRead cfg.cntW.val).foldl (cfg := cfg) (text := text)
    (by simpa [parserInit] using hlt)
  obtain ⟨hfinal, hpos'⟩ := hfold.finish
  have hle := hfinal.error b l herr
  rw [hpos', hpos] at hle
  simpa [parserInit] using hle

/-- A final error is answered with the slice of the text it names. -/
theorem runSerialParse_of_err {i : Instr} {s : State} {text : List CharCode} {b l : BitVec s.config.cntW.val}
    (hp : s.payload = text.map .char) (herr : (finalRegs s.config text).err = some (b, l)) :
    runSerialParse i s = s.raise i .malformedFrame ((slice text b.toNat (b.toNat + l.toNat)).map .char) := by
  have hresult : serialParse s.config text = .error (.malformedFrame (slice text b.toNat (b.toNat + l.toNat))) := by
    simp [serialParse_eq, parserResult, herr, slice]
  rw [runSerialParse, hp, charsOf_map_char, hresult, State.respondParse_malformedFrame]

/-- No error and no frame is answered with `EmptyInput`. -/
theorem runSerialParse_of_no_frame {i : Instr} {s : State} {text : List CharCode}
    (hp : s.payload = text.map .char) (herr : (finalRegs s.config text).err = none)
    (hnfr : (finalRegs s.config text).nfr.toNat = 0) : runSerialParse i s = s.raise i .emptyInput [] := by
  have hresult : serialParse s.config text = .error .emptyInput := by
    simp [serialParse_eq, parserResult, herr, ← BitVec.toNat_inj, hnfr]
  rw [runSerialParse, hp, charsOf_map_char, hresult, State.respondParse_emptyInput]

/-- No error and a frame is answered with `nfr` and `buf`. -/
theorem runSerialParse_of_frames {i : Instr} {s : State} {text : List CharCode}
    (hp : s.payload = text.map .char) (herr : (finalRegs s.config text).err = none)
    (hnfr : (finalRegs s.config text).nfr.toNat ≠ 0) :
    runSerialParse i s =
      s.respond i .ok (finalRegs s.config text).nfr.toNat ((finalRegs s.config text).buf.map .frame) := by
  have hresult : serialParse s.config text =
      .ok ((finalRegs s.config text).nfr.toNat, (finalRegs s.config text).buf) := by
    simp [serialParse_eq, parserResult, herr, ← BitVec.toNat_inj, hnfr]
  rw [runSerialParse, hp, charsOf_map_char, hresult, State.respondParse_ok]

/-- Settles O33: the three ways the registers can end, each with a count that fits the response. -/
theorem serialParserAnswersItsRegisters : Obligations.SerialParserAnswersItsRegisters := by
  intro conv text s hp hlen r
  have hcarries {m : Nat} (hm : m ≤ s.config.maxItems) :=
    carries_of_le_maxItems hm (.parse conv text.length)
  cases herr : r.err with
  | some e =>
    obtain ⟨b, l⟩ := e
    have hwithin := finalRegs_err_within hlen herr
    have hslice : ((slice text b.toNat (b.toNat + l.toNat)).map Item.char).length = l.toNat := by
      simp [slice]
      omega
    refine ⟨_, runSerialParse_of_err hp herr ▸ answered_raise s _ _ _, ?_⟩
    rw [hslice]
    exact hcarries (by omega) .malformedFrame _
  | none =>
    by_cases hnfr : r.nfr.toNat = 0
    · refine ⟨_, runSerialParse_of_no_frame hp herr hnfr ▸ answered_raise s _ _ _, ?_⟩
      simp only [if_pos hnfr]
      exact hcarries (Nat.zero_le _) .emptyInput []
    · refine ⟨_, runSerialParse_of_frames hp herr hnfr ▸ answered_respond s _ _ _ _, ?_⟩
      simp only [if_neg hnfr]
      exact hcarries (Nat.le_sub_one_of_lt r.nfr.isLt) .ok _

end Sys2Proof.Machine

/-! ### The tokens of a text as index pairs (40_parse R91) -/

namespace Sys2Proof.Machine

/-- The text has a whitespace character at this position. -/
def WsAt (cfg : Config) (text : List CharCode) (p : Nat) : Prop := ∃ c, text[p]? = some c ∧ c ∈ cfg.ws

section Spans

variable {cfg : Config} {pre rest text : List CharCode} {ch : CharCode} {a b p : Nat}

/-- A token, by the positions of the whitespace around it. -/
theorem isToken_iff_wsAt : IsToken cfg text a b ↔ a < b ∧ b ≤ text.length ∧
    (∀ p, a ≤ p → p < b → ¬ WsAt cfg text p) ∧ (a = 0 ∨ WsAt cfg text (a - 1)) ∧
    (b = text.length ∨ WsAt cfg text b) := by
  have hrun : (∀ p c, a ≤ p → p < b → text[p]? = some c → c ∉ cfg.ws) ↔
      ∀ p, a ≤ p → p < b → ¬ WsAt cfg text p := by
    simp only [WsAt, not_exists, not_and]
    exact forall_congr' fun p => ⟨fun h ha hb c => h c ha hb, fun h c ha hb => h ha hb c⟩
  rw [IsToken, hrun]
  rfl

theorem IsToken.lt (h : IsToken cfg text a b) : a < b := h.1

theorem IsToken.le_length (h : IsToken cfg text a b) : b ≤ text.length := h.2.1

theorem not_wsAt_of_run (h : ∀ c ∈ text, c ∉ cfg.ws) (p : Nat) : ¬ WsAt cfg text p :=
  fun ⟨c, hc, hws⟩ => h c (List.mem_of_getElem? hc) hws

/-- Before the first of two parts of a text ends, only that part counts. -/
theorem wsAt_append_left (h : p < pre.length) : WsAt cfg (pre ++ rest) p ↔ WsAt cfg pre p := by
  rw [WsAt, List.getElem?_append_left h, WsAt]

theorem wsAt_separator (hch : ch ∈ cfg.ws) : WsAt cfg (pre ++ ch :: rest) pre.length :=
  ⟨ch, by simp, hch⟩

theorem wsAt_append_right : WsAt cfg (pre ++ ch :: rest) (p + (pre.length + 1)) ↔ WsAt cfg rest p := by
  have hget : (pre ++ ch :: rest)[p + (pre.length + 1)]? = rest[p]? := by
    rw [List.getElem?_append_right (by omega), show p + (pre.length + 1) - pre.length = p + 1 by omega,
      List.getElem?_cons_succ]
  rw [WsAt, hget, WsAt]

/-- A text without whitespace is one token, unless it is empty. -/
theorem isToken_run_iff (h : ∀ c ∈ text, c ∉ cfg.ws) :
    IsToken cfg text a b ↔ text ≠ [] ∧ a = 0 ∧ b = text.length := by
  simp only [isToken_iff_wsAt, not_wsAt_of_run h, or_false, ← List.length_pos_iff]
  constructor
  · rintro ⟨hab, -, -, rfl, rfl⟩
    exact ⟨hab, rfl, rfl⟩
  · rintro ⟨hpos, rfl, rfl⟩
    exact ⟨hpos, le_rfl, fun _ _ _ => not_false, rfl, rfl⟩

/-- In front of a whitespace character the tokens are those of the text in front of it. -/
theorem isToken_append_left (hch : ch ∈ cfg.ws) (hb : b ≤ pre.length) :
    IsToken cfg (pre ++ ch :: rest) a b ↔ IsToken cfg pre a b := by
  have hrun : (∀ p, a ≤ p → p < b → ¬ WsAt cfg (pre ++ ch :: rest) p) ↔
      ∀ p, a ≤ p → p < b → ¬ WsAt cfg pre p :=
    forall_congr' fun p => imp_congr_right fun _ => imp_congr_right fun hp =>
      not_congr (wsAt_append_left (hp.trans_le hb))
  have hstart (hab : a < b) : WsAt cfg (pre ++ ch :: rest) (a - 1) ↔ WsAt cfg pre (a - 1) :=
    wsAt_append_left (by omega)
  have hend : (b = (pre ++ ch :: rest).length ∨ WsAt cfg (pre ++ ch :: rest) b) ↔
      b = pre.length ∨ WsAt cfg pre b := by
    rcases hb.eq_or_lt with rfl | hlt
    · simp only [wsAt_separator hch, or_true, true_or]
    · rw [wsAt_append_left hlt, or_iff_right hlt.ne, or_iff_right]
      simp only [List.length_append]
      omega
  have hle : b ≤ (pre ++ ch :: rest).length := by
    simp only [List.length_append]
    omega
  rw [isToken_iff_wsAt, isToken_iff_wsAt, hrun, hend]
  exact and_congr_right fun hab => by simp only [hstart hab, hle, hb]

/-- Behind a whitespace character the tokens are those of the text behind it. -/
theorem isToken_append_right (hch : ch ∈ cfg.ws) :
    IsToken cfg (pre ++ ch :: rest) (a + (pre.length + 1)) (b + (pre.length + 1)) ↔ IsToken cfg rest a b := by
  have hrun : (∀ p, a + (pre.length + 1) ≤ p → p < b + (pre.length + 1) → ¬ WsAt cfg (pre ++ ch :: rest) p) ↔
      ∀ p, a ≤ p → p < b → ¬ WsAt cfg rest p := by
    refine ⟨fun h p ha hb hp => h _ (by omega) (by omega) (wsAt_append_right.2 hp), fun h p ha hb hp => ?_⟩
    obtain ⟨q, rfl⟩ := Nat.exists_eq_add_of_le' ((Nat.le_add_left _ a).trans ha)
    exact h q (by omega) (by omega) (wsAt_append_right.1 hp)
  have hstart : WsAt cfg (pre ++ ch :: rest) (a + (pre.length + 1) - 1) ↔ a = 0 ∨ WsAt cfg rest (a - 1) := by
    cases a with
    | zero => simpa using wsAt_separator hch
    | succ a =>
      rw [Nat.add_right_comm, Nat.add_sub_cancel, wsAt_append_right]
      simp
  have hlen : (pre ++ ch :: rest).length = rest.length + (pre.length + 1) := by
    simp only [List.length_append, List.length_cons]
    omega
  simp only [isToken_iff_wsAt, hrun, hstart, hlen, wsAt_append_right, Nat.add_lt_add_iff_right,
    Nat.add_le_add_iff_right, Nat.add_right_cancel_iff, Nat.add_eq_zero_iff, Nat.succ_ne_zero, and_false, false_or]

/-- The tokens of a text around a whitespace character are those on either side of it. -/
theorem isToken_append_iff (hch : ch ∈ cfg.ws) :
    IsToken cfg (pre ++ ch :: rest) a b ↔
      IsToken cfg pre a b ∨ ∃ x y, IsToken cfg rest x y ∧ a = x + (pre.length + 1) ∧ b = y + (pre.length + 1) := by
  constructor
  · intro h
    obtain ⟨hab, -, hrun, -, -⟩ := isToken_iff_wsAt.1 h
    by_cases hb : b ≤ pre.length
    · exact .inl ((isToken_append_left hch hb).1 h)
    · have ha : pre.length < a := by
        by_contra hle
        exact hrun pre.length (by omega) (by omega) (wsAt_separator hch)
      obtain ⟨x, rfl⟩ := Nat.exists_eq_add_of_le' (Nat.succ_le_of_lt ha)
      obtain ⟨y, rfl⟩ := Nat.exists_eq_add_of_le' ((Nat.succ_le_of_lt ha).trans hab.le)
      exact .inr ⟨x, y, (isToken_append_right hch).1 h, rfl, rfl⟩
  · rintro (h | ⟨x, y, h, rfl, rfl⟩)
    · exact (isToken_append_left hch h.le_length).2 h
    · exact (isToken_append_right hch).2 h

/-- A whitespace character behind a run separates its tokens from those of the rest. -/
theorem tokens_append_of_run (hpre : ∀ c ∈ pre, c ∉ cfg.ws) (hch : ch ∈ cfg.ws) :
    tokens cfg (pre ++ ch :: rest) = tokens cfg pre ++ tokens cfg rest := by
  by_cases hne : pre = []
  · subst hne
    exact tokens_cons_ws cfg ch rest hch
  · rw [tokens_append_ws cfg pre ch rest hne hpre hch, tokens_of_run cfg pre hne hpre]
    rfl

/-! ### Slices (00_scope R10) -/

theorem slice_append_left {l₁ l₂ : List CharCode} (hb : b ≤ l₁.length) : slice (l₁ ++ l₂) a b = slice l₁ a b := by
  rw [slice, slice, List.drop_append, List.take_append_of_le_length]
  rw [List.length_drop]
  omega

theorem slice_append_right :
    slice (pre ++ ch :: rest) (a + (pre.length + 1)) (b + (pre.length + 1)) = slice rest a b := by
  have hk : pre.length + 1 = (pre ++ [ch]).length := by simp
  rw [slice, slice, Nat.add_sub_add_right, List.append_cons, hk, Nat.add_comm a, List.drop_length_add_append]

/-! ### The index pairs of all tokens -/

/-- The pairs stand in order, are exactly the tokens, and slice the text into `tokens`. -/
structure AreTokenSpans (cfg : Config) (text : List CharCode) (spans : List (Nat × Nat)) : Prop where
  sorted : spans.Pairwise (fun x y => x.1 < y.1)
  mem_iff : ∀ a b, (a, b) ∈ spans ↔ IsToken cfg text a b
  slices : tokens cfg text = spans.map fun x => slice text x.1 x.2

/-- The index pair of a slice that stands `k` positions further right. -/
def shiftSpan (k : Nat) (x : Nat × Nat) : Nat × Nat := (x.1 + k, x.2 + k)

/-- The one span of a text without whitespace, if it is not empty. -/
theorem areTokenSpans_run (h : ∀ c ∈ text, c ∉ cfg.ws) :
    AreTokenSpans cfg text (if text = [] then [] else [(0, text.length)]) := by
  by_cases hne : text = []
  · subst hne
    exact ⟨.nil, fun a b => by simp [isToken_run_iff h], rfl⟩
  · simp only [if_neg hne]
    exact ⟨List.pairwise_singleton _ _, fun a b => by simp [isToken_run_iff h, hne],
      by simp [tokens_of_run cfg text hne h, slice]⟩

/-- The spans around a whitespace character are those on either side of it, the right ones shifted. -/
theorem AreTokenSpans.append {xs ys : List (Nat × Nat)} (hxs : AreTokenSpans cfg pre xs)
    (hys : AreTokenSpans cfg rest ys) (hpre : ∀ c ∈ pre, c ∉ cfg.ws) (hch : ch ∈ cfg.ws) :
    AreTokenSpans cfg (pre ++ ch :: rest) (xs ++ ys.map (shiftSpan (pre.length + 1))) where
  sorted := by
    refine List.pairwise_append.2 ⟨hxs.sorted, List.pairwise_map.2 (hys.sorted.imp fun h => ?_), ?_⟩
    · exact Nat.add_lt_add_right h _
    · rintro ⟨a, b⟩ hx _ hy
      obtain ⟨y, -, rfl⟩ := List.mem_map.1 hy
      have htoken := (hxs.mem_iff a b).1 hx
      have hlt : a < pre.length := htoken.lt.trans_le htoken.le_length
      simp only [shiftSpan]
      omega
  mem_iff a b := by
    rw [List.mem_append, hxs.mem_iff, isToken_append_iff hch]
    simp only [List.mem_map, Prod.exists, hys.mem_iff, shiftSpan, Prod.mk.injEq, eq_comm]
  slices := by
    have hleft : ∀ x ∈ xs, slice pre x.1 x.2 = slice (pre ++ ch :: rest) x.1 x.2 := fun x hx =>
      (slice_append_left ((hxs.mem_iff x.1 x.2).1 hx).le_length).symm
    rw [tokens_append_of_run hpre hch, hxs.slices, hys.slices, List.map_append, List.map_map,
      List.map_congr_left hleft]
    simp only [Function.comp_def, shiftSpan, slice_append_right]

/-- Reading on from a run, the spans of the tokens exist. -/
theorem exists_areTokenSpans (hpre : ∀ c ∈ pre, c ∉ cfg.ws) : ∃ spans, AreTokenSpans cfg (pre ++ rest) spans := by
  induction rest generalizing pre with
  | nil => exact ⟨_, (List.append_nil pre).symm ▸ areTokenSpans_run hpre⟩
  | cons c rest ih =>
    by_cases hc : c ∈ cfg.ws
    · obtain ⟨ys, hys⟩ := ih (pre := []) (by simp)
      exact ⟨_, (areTokenSpans_run hpre).append hys hpre hc⟩
    · rw [List.append_cons]
      exact ih (by simpa [or_imp, forall_and] using ⟨hpre, hc⟩)

end Spans

/-- Settles O27: the spans of the whole text, read from the empty run. -/
theorem tokensAreMaximalRuns : Obligations.TokensAreMaximalRuns := by
  intro cfg text
  obtain ⟨spans, hsorted, hmem, hslices⟩ := exists_areTokenSpans (cfg := cfg) (pre := []) (rest := text) (by simp)
  exact ⟨spans, hsorted, hmem, hslices⟩

end Sys2Proof.Machine

/-! ### `PAR` and the parity rule by counting (41_parity R110, R111, R114) -/

namespace Sys2Proof.Machine

/-- The `even` row of 41_parity R111: odd counts get a 1. -/
theorem computeParityBit_even (b : DataBits) : computeParityBit b .even = !decide (ones b % 2 = 0) := by
  by_cases h : ones b % 2 = 0 <;> simp [computeParityBit, h]

/-- The `odd` row of 41_parity R111: even counts get a 1. -/
theorem computeParityBit_odd (b : DataBits) : computeParityBit b .odd = decide (ones b % 2 = 0) := by
  by_cases h : ones b % 2 = 0 <;> simp [computeParityBit, h]

/-- Settles O26: one result is the negation of the other. -/
theorem conventionsAlwaysDisagree : Obligations.ConventionsAlwaysDisagree := fun d => by
  rw [computeParityBit_even, computeParityBit_odd, Bool.not_xor_self]

/-- Settles O25: the number of ones is even or odd, and either fixes both results and both totals. -/
theorem parityMakesTotalMatchConvention : Obligations.ParityMakesTotalMatchConvention := fun b => by
  rw [computeParityBit_even, computeParityBit_odd]
  rcases Nat.mod_two_eq_zero_or_one (ones b) with h | h
  · simp [h, Nat.add_mod]
  · simp [h, Nat.add_mod]

/-- The ones of a data byte, counted over its data bits: data bit `j` is word bit `7 - j` (30_encoding R80). -/
theorem ones_eq_countP_getLsbD (d : DataBits) : ones d = (List.range 8).countP fun j => d.getLsbD (7 - j) := by
  rw [ones, bits, List.count, List.countP_map]
  refine List.countP_congr fun j hj => ?_
  simp [BitVec.getMsbD, List.mem_range.1 hj]

/-- The result bit as a number is what 41_parity R110 tabulates. -/
theorem toNat_computeParityBit (d : DataBits) (conv : Convention) :
    (computeParityBit d conv).toNat =
      if conv = .even then (if ones d % 2 = 0 then 0 else 1) else (if ones d % 2 = 0 then 1 else 0) := by
  cases conv with
  | even => by_cases h : ones d % 2 = 0 <;> simp [computeParityBit_even, h]
  | odd => by_cases h : ones d % 2 = 0 <;> simp [computeParityBit_odd, h]

/-- Executing `PAR` without a payload answers the parity bit in `m`. -/
theorem exec_par_of_no_payload (conv : Convention) (d : DataBits) {s : State} (hp : s.payload = []) :
    exec (.par conv d) s = .next (s.respond (.par conv d) .ok (computeParityBit d conv).toNat []) := by
  have hlegal : illegal s.config (.par conv d) s.payload = none :=
    hp ▸ (illegal_eq_none_iff _ _ _).2 ⟨Nat.zero_le _, rfl, rfl, rfl⟩
  rw [exec_eq_serve, serve_of_legal _ hlegal]

/-- Settles O23: `PAR` answers the parity bit in `m`, and that bit is the count's parity under the convention. -/
theorem parReturnsParityBit : Obligations.ParReturnsParityBit := by
  intro conv d s hp
  refine ⟨_, _, exec_par_of_no_payload conv d hp, answered_respond s _ _ _ _, ?_⟩
  have hm : (computeParityBit d conv).toNat < 2 ^ 16 := (Bool.toNat_lt _).trans (by decide)
  rw [← ones_eq_countP_getLsbD, ← toNat_computeParityBit]
  exact rspWord_carries 1#3 conv .ok _ [] hm

end Sys2Proof.Machine

/-! ### The verdict of `CHECK` and the number of ones (42_check R121 to R126) -/

namespace Sys2Proof.Machine

/-- A number of ones is odd when the exclusive-or of the bits is 1 (41_parity R112). -/
theorem odd_ones_eq_foldl_xor {w : Nat} (b : BitVec w) :
    decide (ones b % 2 = 1) = (bits b).foldl (· ^^ ·) false := by
  rw [foldl_xor_eq_count, Bool.false_xor, ones]

/-- Folding exclusive-or over two sequences joined member by member joins the two folds. -/
theorem foldl_xor_map_xor {α : Type} (l : List α) (f g : α → Bool) (a b : Bool) :
    (l.map fun x => f x ^^ g x).foldl (· ^^ ·) (a ^^ b) =
      ((l.map f).foldl (· ^^ ·) a ^^ (l.map g).foldl (· ^^ ·) b) := by
  induction l generalizing a b with
  | nil => rfl
  | cons x l ih =>
    have hswap : (a ^^ b ^^ (f x ^^ g x)) = (a ^^ f x ^^ (b ^^ g x)) := by
      rw [Bool.xor_assoc, Bool.xor_assoc, Bool.xor_left_comm b]
    simp only [List.map_cons, List.foldl_cons]
    rw [hswap, ih]

/-- The number of ones of an exclusive-or is odd when exactly one of the two numbers of ones is (42_check R126). -/
theorem odd_ones_xor {w : Nat} (b c : BitVec w) :
    decide (ones (b ^^^ c) % 2 = 1) = (decide (ones b % 2 = 1) ^^ decide (ones c % 2 = 1)) := by
  have hbits : bits (b ^^^ c) = (List.range w).map fun j => b.getMsbD j ^^ c.getMsbD j :=
    List.map_congr_left fun j _ => BitVec.getMsbD_xor
  rw [odd_ones_eq_foldl_xor, odd_ones_eq_foldl_xor, odd_ones_eq_foldl_xor, hbits]
  exact foldl_xor_map_xor (List.range w) b.getMsbD c.getMsbD false false

/-- One bit alone is an odd number of ones: the error pattern of a flip (44_inject R147). -/
theorem ones_one_shiftLeft {j : Nat} (hj : j < 9) : ones (1#9 <<< (8 - j)) = 1 := by
  interval_cases j <;> rfl

/-- The bits of a frame: its data bits, then its parity bit (00_scope R11). -/
theorem bits_frame (f : Frame) : bits f = bits (dataOf f) ++ [parOf f] := by
  have hdata : (List.range 8).map f.getMsbD = bits (dataOf f) := List.map_congr_left fun j hj => by
    have hj := List.mem_range.1 hj
    interval_cases j <;> simp [dataOf, BitVec.getMsbD_eq_getLsbD]
  rw [bits, List.range_succ, List.map_append, hdata]
  rfl

/-- 42_check R124: `mismatch` is the parity of all nine bits, complemented under `odd`. -/
theorem mismatch_eq_odd_ones (conv : Convention) (f : Frame) :
    (checkFrame conv f).mismatch = (decide (ones f % 2 = 1) ^^ conv.bit) := by
  rw [odd_ones_eq_foldl_xor, bits_frame, List.foldl_append, List.foldl_cons, List.foldl_nil, Bool.xor_right_comm,
    ← computeParityBit_eq_foldl_xor]
  exact congrFun₂ Bool.bne_eq_xor _ _

/-- Settles O38: each field of the item is the value its step of the explanation carries. -/
theorem explanationReadFromItem : Obligations.ExplanationReadFromItem := by
  intro conv f
  refine ⟨?_, rfl⟩
  rw [explanationOfChk, chkWord_conv, chkWord_ones, chkWord_expected, chkWord_received, chkWord_mismatch,
    Convention.ofBit_bit]
  rfl

/-- Settles O37: `m` counts the mismatching frames, so it is 0 when there is none. -/
theorem checkSucceedsIffNoFrameMismatches : Obligations.CheckSucceedsIffNoFrameMismatches := by
  intro conv fs s hp hpos hle
  have hm : fs.countP (mismatchBit conv) ≤ s.config.maxItems := List.countP_le_length.trans hle
  refine ⟨_, _, exec_check_frames conv hp hpos hle, State.respond_received _ _ _ _ _, ?_,
    Response.m_rspWord hm _ _ _ _, ?_⟩
  · rw [rspWord_statusField]
    rfl
  · rw [Response.checkSucceeded, Response.m_rspWord hm, beq_iff_eq, List.countP_eq_zero]
    simp [checkFrame]

/-- Settles O39: the parity of the nine bits, written as their exclusive-or and read off under each convention. -/
theorem mismatchClosedForms : Obligations.MismatchClosedForms := by
  intro f
  refine ⟨fun conv => ?_, ?_, ?_⟩
  · have hbits : bits f = [f.getMsbD 0, f.getMsbD 1, f.getMsbD 2, f.getMsbD 3, f.getMsbD 4, f.getMsbD 5, f.getMsbD 6,
        f.getMsbD 7, f.getMsbD 8] := rfl
    rw [mismatch_eq_odd_ones, odd_ones_eq_foldl_xor, hbits]
    simp only [List.foldl_cons, List.foldl_nil, Bool.false_xor]
  · simp [mismatch_eq_odd_ones, Convention.bit]
  · simp [mismatch_eq_odd_ones, Convention.bit]

/-- Settles O40: the ones of frame and pattern add up modulo 2, and the conventions differ in the bit they add. -/
theorem flippedBitsShowByTheirParity : Obligations.FlippedBitsShowByTheirParity := by
  intro conv f e
  simp only [mismatch_eq_odd_ones]
  constructor
  · rw [odd_ones_xor, Bool.xor_right_comm]
  · simp [Convention.bit]

/-- A flip of one bit complements the verdict (42_check R125). -/
theorem mismatch_flipBit (conv : Convention) (f : Frame) {j : Nat} (hj : j < 9) :
    (checkFrame conv (flipBit f j)).mismatch = !(checkFrame conv f).mismatch := by
  rw [flipBit_eq_xor f hj, (flippedBitsShowByTheirParity conv f _).1, ones_one_shiftLeft hj]
  exact Bool.xor_true _

/-- Settles O41: each flip complements the verdict. -/
theorem oneFlipDetectedTwoFlipsMissed : Obligations.OneFlipDetectedTwoFlipsMissed := by
  intro conv f i j hi hj _ hvalid
  rw [mismatch_flipBit conv _ hj, mismatch_flipBit conv f hi, hvalid]
  exact ⟨rfl, rfl⟩

end Sys2Proof.Machine

/-! ### `GEN` and its frames under `CHECK` (43_generate R135 to R141) -/

namespace Sys2Proof

@[simp] theorem Convention.bit_other (conv : Convention) : conv.other.bit = !conv.bit := by
  cases conv <;> rfl

end Sys2Proof

namespace Sys2Proof.Machine

/-- Executing `GEN` without a payload answers the drawn frames after `8*n` draws. -/
theorem exec_gen_of_no_payload (conv : Convention) {n : Nat} {s : State} (hp : s.payload = []) (hpos : 1 ≤ n)
    (hle : n ≤ s.config.maxItems) :
    exec (.gen conv n) s = .next ((s.consume (8 * n)).respond (.gen conv n) .ok n
      ((generate conv n s.randBit).map .frame)) := by
  have hzero : zeroCountForbidden (.gen conv n) = false := beq_false_of_ne (Nat.one_le_iff_ne_zero.1 hpos)
  have hlegal : illegal s.config (.gen conv n) s.payload = none :=
    hp ▸ (illegal_eq_none_iff _ _ _).2 ⟨hle, rfl, hzero, rfl⟩
  rw [exec_eq_serve, serve_of_legal _ hlegal]
  rfl

/-- The data bits of a generated frame are those drawn for it. -/
@[simp] theorem generatedFrame_data (conv : Convention) (draw : Nat → Bool) (i : Nat) :
    dataOf (generatedFrame conv draw i) = generatedData draw i :=
  frameOfParts_data _ _

/-- The parity bit of a generated frame is that of its data. -/
theorem generatedFrame_par (conv : Convention) (draw : Nat → Bool) (i : Nat) :
    parOf (generatedFrame conv draw i) = computeParityBit (dataOf (generatedFrame conv draw i)) conv := by
  rw [generatedFrame_data]
  exact frameOfParts_par _ _

/-- Data bit `j` of generated frame `i` is draw `8*i + j` (43_generate R136). -/
theorem generatedFrame_getMsbD (conv : Convention) (draw : Nat → Bool) (i : Nat) {j : Nat} (hj : j < 8) :
    (generatedFrame conv draw i).getMsbD j = draw (8 * i + j) :=
  (frameOfParts_getMsbD _ _ j hj).trans (generatedData_getMsbD draw i j hj)

/-- The frame at index `i` of a generated set is frame `i`. -/
theorem eq_generatedFrame_of_getElem? {conv : Convention} {n : Nat} {draw : Nat → Bool} {i : Nat} {f : Frame}
    (h : (generate conv n draw)[i]? = some f) : f = generatedFrame conv draw i := by
  obtain ⟨_, rfl⟩ := List.getElem?_eq_some_iff.1 h
  simp [generate]

/-- Settles O42: the frame at index `i` is frame `i` of the draws. -/
theorem generateReturnsDrawnFrames : Obligations.GenerateReturnsDrawnFrames := by
  intro conv n s hp hpos hle
  refine ⟨_, _, _, exec_gen_of_no_payload conv hp hpos hle, answered_consume_respond s _ _ _ _ _,
    carries_of_le_maxItems hle (.gen conv n) .ok _, generate_length _ _ _, fun i f hf => ?_⟩
  obtain rfl := eq_generatedFrame_of_getElem? hf
  exact ⟨fun j hj => generatedFrame_getMsbD conv s.randBit i hj, generatedFrame_par conv s.randBit i⟩

/-- A generated frame matches under its convention (43_generate R139). -/
theorem mismatchBit_of_mem_generate {conv : Convention} {n : Nat} {draw : Nat → Bool} {f : Frame}
    (hf : f ∈ generate conv n draw) : mismatchBit conv f = false := by
  obtain ⟨i, -, rfl⟩ := List.mem_map.1 hf
  rw [mismatchBit, ← generatedFrame_par, bne_self_eq_false]

/-- The other convention complements the verdict on every frame (42_check R126). -/
theorem mismatchBit_other (conv : Convention) (f : Frame) : mismatchBit conv.other f = !mismatchBit conv f := by
  have hverdict (c : Convention) : mismatchBit c f = (decide (ones f % 2 = 1) ^^ c.bit) := mismatch_eq_odd_ones c f
  rw [hverdict, hverdict, Convention.bit_other, Bool.xor_not]

/-- `CHECK` under any convention, of the frames `GEN` answered, counts those that mismatch, in `m` and in the items. -/
theorem exec_check_after_gen (conv conv' : Convention) {n : Nat} {s : State} (hp : s.payload = []) (hpos : 1 ≤ n)
    (hle : n ≤ s.config.maxItems) :
    ∃ (t : State) (a : Response) (u : State) (b : Response), exec (.gen conv n) s = .next t ∧
      t.received = s.received ++ [a] ∧
      exec (.check conv' n) { t with payload := a.payload } = .next u ∧ u.received = t.received ++ [b] ∧
      b.statusCode = 0 ∧ b.m = (generate conv n s.randBit).countP (mismatchBit conv') ∧
      b.payload.countP Item.isMismatch = (generate conv n s.randBit).countP (mismatchBit conv') := by
  have hlen : (generate conv n s.randBit).length = n := generate_length conv n s.randBit
  have hm : (generate conv n s.randBit).countP (mismatchBit conv') ≤ s.config.maxItems :=
    List.countP_le_length.trans (hlen.trans_le hle)
  have hcheck (t : State) := exec_check_frames conv' (fs := generate conv n s.randBit) (s := t)
  simp only [hlen] at hcheck
  refine ⟨_, _, _, _, exec_gen_of_no_payload conv hp hpos hle, State.respond_received _ _ _ _ _,
    hcheck _ rfl hpos hle, State.respond_received _ _ _ _ _,
    Response.statusCode_rspWord _ _ .ok _ _, Response.m_rspWord hm _ _ _ _, ?_⟩
  rw [← mismatchCount_checkResults, ← countP_isMismatch_chk, checkResults, List.map_map, List.map_map]
  rfl

/-- Settles O43: no generated frame mismatches, so `m` and the items with a mismatch bit are none. -/
theorem generatedFramesCheckValid : Obligations.GeneratedFramesCheckValid := by
  intro conv n s hp hpos hle
  obtain ⟨t, a, u, b, hgen, ht, hcheck, hu, hst, hm, hitems⟩ := exec_check_after_gen conv conv hp hpos hle
  have hnone : (generate conv n s.randBit).countP (mismatchBit conv) = 0 :=
    List.countP_eq_zero.2 fun f hf => Bool.eq_false_iff.1 (mismatchBit_of_mem_generate hf)
  rw [hnone] at hm hitems
  exact ⟨t, a, u, b, hgen, ht, hcheck, hu, hst, hm, fun c hc =>
    Bool.eq_false_of_not_eq_true (List.countP_eq_zero.1 hitems c hc)⟩

/-- Settles O44: the other convention complements the verdict on every generated frame. -/
theorem generatedFramesMismatchUnderOther : Obligations.GeneratedFramesMismatchUnderOther := by
  intro conv n s hp hpos hle
  obtain ⟨t, a, u, b, hgen, ht, hcheck, hu, hst, hm, -⟩ := exec_check_after_gen conv conv.other hp hpos hle
  have hall : (generate conv n s.randBit).countP (mismatchBit conv.other) = (generate conv n s.randBit).length :=
    List.countP_eq_length.2 fun f hf => by rw [mismatchBit_other, mismatchBit_of_mem_generate hf, Bool.not_false]
  rw [hall, generate_length] at hm
  exact ⟨t, a, u, b, hgen, ht, hcheck, hu, hst, hm⟩

/-- The answers of the randomness source that draw these data bytes: answer `8*i + j` is data bit `j` of byte `i`. -/
def drawsFor (ds : List DataBits) : List Nat :=
  (List.range (8 * ds.length)).map fun k => ((ds[k / 8]?.getD 0).getMsbD (k % 8)).toNat

/-- With those answers known, draw `8*i + j` is data bit `j` of byte `i`. -/
theorem randBit_of_drawsFor {s : State} {ds : List DataBits} (hs : s.draws = drawsFor ds) {i j : Nat}
    (hi : i < ds.length) (hj : j < 8) : s.randBit (8 * i + j) = ds[i].getMsbD j := by
  have hdiv : (8 * i + j) / 8 = i := by omega
  have hmod : (8 * i + j) % 8 = j := by omega
  have hlt : 8 * i + j < 8 * ds.length := by omega
  have hknown : s.draws[8 * i + j]? = some (ds[i].getMsbD j).toNat := by
    simp [hs, drawsFor, hlt, hdiv, hmod, hi]
  rw [State.randBit, State.answer_of_known s hknown]
  cases ds[i].getMsbD j <;> rfl

/-- With those answers known, the generated data bits are those bytes (43_generate R141). -/
theorem map_dataOf_generate_drawsFor (conv : Convention) {s : State} {ds : List DataBits}
    (hs : s.draws = drawsFor ds) : (generate conv ds.length s.randBit).map dataOf = ds := by
  refine List.ext_getElem (by simp) fun i _ hi => ?_
  have hdata : generatedData s.randBit i = ds[i] := BitVec.eq_of_getMsbD_eq fun j hj => by
    rw [generatedData_getMsbD _ _ _ hj, randBit_of_drawsFor hs hi hj]
  simp [generate, hdata]

/-- Settles O45: the answers spell the data bytes bit by bit. -/
theorem everyDataPatternIsGenerable : Obligations.EveryDataPatternIsGenerable := by
  intro conv ds s hp hpos hle
  have hgen := exec_gen_of_no_payload conv (s := { s with draws := drawsFor ds }) hp hpos hle
  exact ⟨drawsFor ds, _, _, _, hgen, State.respond_received _ _ _ _ _, rfl, map_dataOf_generate_drawsFor conv rfl⟩

end Sys2Proof.Machine

/-! ### What an injection can do and what it leaves alone (44_inject R146 to R152) -/

namespace Sys2Proof.Machine

/-- Executing `INJ` of zero frames raises `EmptyFrameSet`, without a draw. -/
theorem exec_inj_of_no_payload (conv : Convention) {s : State} (hp : s.payload = []) :
    exec (.inj conv 0) s = .next (s.raise (.inj conv 0) .emptyFrameSet []) := by
  have hlegal : illegal s.config (.inj conv 0) s.payload = none :=
    hp ▸ (illegal_eq_none_iff _ _ _).2 ⟨Nat.zero_le _, rfl, rfl, rfl⟩
  rw [exec_eq_serve, serve_of_legal _ hlegal]
  simp [runInj, hp, framesOf]

/-- Settles O47: the error carries no information, so `m` is 0 and there is no payload. -/
theorem injectOfNoFramesFails : Obligations.InjectOfNoFramesFails := by
  intro conv s hp
  exact ⟨_, _, exec_inj_of_no_payload conv hp, answered_raise s _ _ _,
    carries_of_le_maxItems (Nat.zero_le s.config.maxItems) (.inj conv 0) .emptyFrameSet []⟩

/-- A known answer in the range of the draw is the drawn value (60_exceptions R186). -/
theorem State.randIndex_of_known {s : State} {k n r : Nat} (h : s.draws[k]? = some r) (hr : r < n) :
    s.randIndex k n = r := by
  rw [State.randIndex, s.answer_of_known h, Nat.mod_eq_of_lt hr]

/-- Settles O48: with the answers `i` and `j` known that location is drawn, and `INJ` flips and names what it draws. -/
theorem injectReachesEveryBit : Obligations.InjectReachesEveryBit := by
  intro conv fs s i j hp hi hj hle
  have hdrawn : drawnMutation fs.length { s with draws := [i, j] } = { frameIndex := i, bitIndex := j } :=
    congrArg₂ BitMutation.mk (State.randIndex_of_known rfl hi) (State.randIndex_of_known rfl hj)
  have hexec := exec_inj_frames conv (s := { s with draws := [i, j] }) hp (Nat.one_le_of_lt hi) hle
  rw [hdrawn] at hexec
  refine ⟨[i, j], _, _, _, _, hexec, State.respond_received _ _ _ _ _, rfl,
    mutWord_frameIndex _ (hi.trans (hle.trans_lt (maxItems_lt s.config))), mutWord_bitIndex _ (hj.trans (by decide)),
    fun f hf => ?_⟩
  rw [flipAt_getElem?, hf, Option.map_some, if_pos rfl, flipBit_eq_xor f hj]

/-- Settles O49: only the chosen frame is flipped, and one flip complements a verdict. -/
theorem injectionComplementsOneVerdict : Obligations.InjectionComplementsOneVerdict := by
  intro conv fs i j _ hj q f hf
  refine ⟨_, by rw [flipAt_getElem?, hf, Option.map_some], fun hq => ?_, fun hq => ?_⟩
  · rw [if_pos hq]
    exact mismatch_flipBit conv f hj
  · rw [if_neg hq]

/-- Flipping a bit twice gives the frame back (44_inject R152). -/
theorem flipBit_flipBit (f : Frame) {j : Nat} (hj : j < 9) : flipBit (flipBit f j) j = f := by
  rw [flipBit_eq_xor _ hj, flipBit_eq_xor f hj, BitVec.xor_assoc, BitVec.xor_self, BitVec.xor_zero]

/-- Settles O50: the second injection flips the chosen frame's bit back. -/
theorem sameInjectionTwiceRestores : Obligations.SameInjectionTwiceRestores := by
  intro fs i j _ hj
  have htwice : (flipBit · j) ∘ (flipBit · j) = id := funext fun f => flipBit_flipBit f hj
  rw [flipAt, flipAt, List.modify_modify_eq, htwice, List.modify_id]

end Sys2Proof.Machine

/-! ### A corrected set under `CHECK` and under a second correction (45_correct R161 to R165) -/

namespace Sys2Proof.Machine

/-- `changed` of `CORR` is `mismatch` of `CHECK` (45_correct R161). -/
theorem changedBit_eq_mismatchBit (conv : Convention) (f : Frame) : changedBit conv f = mismatchBit conv f := rfl

/-- `CHECK` and `CORR` accept the same payloads (30_encoding R64, R77). -/
theorem illegal_corr_eq_illegal_check (cfg : Config) (conv : Convention) (n : Nat) (p : List Item) :
    illegal cfg (.corr conv n) p = illegal cfg (.check conv n) p := rfl

/-- The size of the `CorrectionSet` is the mismatch count of the same frames (45_correct R161). -/
theorem correctionSet_length_eq_mismatchCount (conv : Convention) (fs : List Frame) :
    (correctionSet conv fs).length = mismatchCount (checkResults conv fs) := by
  rw [correctionSet_length, mismatchCount_checkResults]
  exact List.countP_congr fun f _ => by rw [changedBit_eq_mismatchBit]

/-- Settles O52: both refuse the request, with a count of 0, or both run and count the mismatching frames. -/
theorem correctCountsWhatCheckCounts : Obligations.CorrectCountsWhatCheckCounts := by
  intro conv n s
  refine ⟨mem_correctionSet conv, ?_⟩
  by_cases hcheck : illegal s.config (.check conv n) s.payload = none
  · have hcorr := (illegal_corr_eq_illegal_check s.config conv n s.payload).trans hcheck
    refine ⟨_, _, _, _, (exec_eq_serve _ s).trans (serve_of_legal _ hcheck),
      (exec_eq_serve _ s).trans (serve_of_legal _ hcorr), State.respond_received _ _ _ _ _,
      State.respond_received _ _ _ _ _, ?_⟩
    rw [rspWord_countField, rspWord_countField, correctionSet_length_eq_mismatchCount]
  · have hcorr := (illegal_corr_eq_illegal_check s.config conv n s.payload).trans_ne hcheck
    refine ⟨_, _, _, _, exec_of_illegal hcheck, exec_of_illegal hcorr, State.refuse_received _ _ _,
      State.refuse_received _ _ _, ?_⟩
    rw [rspWord_countField, rspWord_countField]

/-- A corrected frame matches under the convention it was corrected for (45_correct R163). -/
theorem mismatchBit_correctFrame (conv : Convention) (f : Frame) : mismatchBit conv (correctFrame conv f) = false := by
  obtain ⟨hdata, hpar⟩ := correctFrame_isCorrectionOf conv f
  exact bne_eq_false_iff_eq.2 ((congrArg (computeParityBit · conv) hdata).trans hpar.symm)

/-- No frame of a corrected set mismatches (45_correct R163). -/
theorem mismatchBit_of_mem_correctFrames {conv : Convention} {fs : List Frame} {f : Frame}
    (hf : f ∈ correctFrames conv fs) : mismatchBit conv f = false := by
  obtain ⟨g, -, rfl⟩ := List.mem_map.1 hf
  exact mismatchBit_correctFrame conv g

/-- The frames of the `CFRAME` items of `CORR` are the corrected set (30_encoding R72). -/
theorem frames_of_cframeWords (conv : Convention) (fs : List Frame) :
    (fs.map fun f => cframeWord (changedBit conv f) (correctFrame conv f)).map
      (fun w => Item.frame (w.extractLsb' 0 9)) = (correctFrames conv fs).map .frame := by
  simp [correctFrames, cframeWord_frame]

/-- Executing `CHECK` on a legal set without a mismatch answers a count of 0 and no item with its mismatch bit set. -/
theorem exec_check_of_no_mismatch {conv : Convention} {n : Nat} {fs : List Frame} {s : State} (hlen : fs.length = n)
    (hp : s.payload = fs.map .frame) (hpos : 1 ≤ n) (hle : n ≤ s.config.maxItems)
    (hvalid : ∀ f ∈ fs, mismatchBit conv f = false) :
    ∃ items, exec (.check conv n) s = .next (s.respond (.check conv n) .ok 0 items) ∧
      ∀ c ∈ items, c.isMismatch = false := by
  subst hlen
  have hnone : fs.countP (mismatchBit conv) = 0 := List.countP_eq_zero.2 fun f hf => Bool.eq_false_iff.1 (hvalid f hf)
  refine ⟨_, hnone ▸ exec_check_frames conv hp hpos hle, ?_⟩
  intro c hc
  obtain ⟨_, hw, rfl⟩ := List.mem_map.1 hc
  obtain ⟨f, hf, rfl⟩ := List.mem_map.1 hw
  exact (chkWord_mismatch _ _).trans (hvalid f hf)

/-- Settles O53: the frames `CHECK` is given are the corrected set, in which no frame mismatches. -/
theorem correctedFramesCheckValid : Obligations.CorrectedFramesCheckValid := by
  intro conv fs s hp hpos hle
  obtain ⟨items, hcheck, hitems⟩ := exec_check_of_no_mismatch (s := { s.respond _ _ _ _ with payload := _ })
    (List.length_map _) (frames_of_cframeWords conv fs) hpos hle fun _ => mismatchBit_of_mem_correctFrames
  refine ⟨_, _, _, _, _, exec_corr_frames conv hp hpos hle, State.respond_received _ _ _ _ _, rfl, hcheck,
    State.respond_received _ _ _ _ _, ?_, ?_, hitems⟩
  · rw [rspWord_statusField]
    rfl
  · rw [rspWord_countField]
    rfl

/-- Correction leaves a matching frame as it is (45_correct R163). -/
theorem correctFrame_of_match {conv : Convention} {f : Frame} (h : mismatchBit conv f = false) :
    correctFrame conv f = f := by
  obtain ⟨hdata, hpar⟩ := correctFrame_isCorrectionOf conv f
  exact frame_eq_of_parts hdata (hpar.trans (bne_eq_false_iff_eq.1 h))

/-- Where every frame matches, the `CorrectionSet` is empty. -/
theorem correctionSet_of_all_match {conv : Convention} {fs : List Frame}
    (h : ∀ f ∈ fs, mismatchBit conv f = false) : correctionSet conv fs = [] := by
  refine List.eq_nil_iff_forall_not_mem.2 fun i hi => ?_
  obtain ⟨f, hf, hchanged⟩ := (mem_correctionSet conv fs i).1 hi
  exact Bool.eq_false_iff.1 (h f (List.mem_of_getElem? hf)) hchanged

/-- Where every frame mismatches, the `CorrectionSet` holds every index. -/
theorem correctionSet_of_all_mismatch {conv : Convention} {fs : List Frame}
    (h : ∀ f ∈ fs, mismatchBit conv f = true) : correctionSet conv fs = List.range fs.length := by
  have hall : (fs.zipIdx.filter fun p => changedBit conv p.1) = fs.zipIdx :=
    List.filter_eq_self.2 fun _ hp => h _ (List.fst_mem_of_mem_zipIdx hp)
  rw [correctionSet, hall, List.zipIdx_map_snd, List.range_eq_range']

/-- Settles O54: a corrected frame matches, so it is left as it is, and it mismatches under the other convention. -/
theorem correctionIsIdempotent : Obligations.CorrectionIsIdempotent := by
  intro conv fs
  have hvalid : ∀ f ∈ correctFrames conv fs, mismatchBit conv f = false := fun _ => mismatchBit_of_mem_correctFrames
  have hother : ∀ f ∈ correctFrames conv fs, mismatchBit conv.other f = true := fun f hf => by
    rw [mismatchBit_other, hvalid f hf, Bool.not_false]
  refine ⟨hvalid, ?_, correctionSet_of_all_match hvalid, ?_⟩
  · exact (List.map_congr_left fun f hf => correctFrame_of_match (hvalid f hf)).trans (List.map_id _)
  · rw [correctionSet_of_all_mismatch hother, correctFrames, List.length_map]

/-- A flip at `j` complements data bit `j` and leaves the other data bits (44_inject R147). -/
theorem dataOf_flipBit_getMsbD (f : Frame) {i j : Nat} (hi : i < 8) (hj : j < 9) :
    (dataOf (flipBit f j)).getMsbD i = ((dataOf f).getMsbD i ^^ decide (i = j)) := by
  have hdata (g : Frame) : (dataOf g).getMsbD i = g.getMsbD i := by
    interval_cases i <;> simp [dataOf, BitVec.getMsbD_eq_getLsbD]
  rw [hdata, hdata, flipBit_getMsbD f j i hj]

/-- A flip of the parity bit leaves the data bits. -/
theorem dataOf_flipBit_parity (f : Frame) : dataOf (flipBit f 8) = dataOf f :=
  BitVec.eq_of_getMsbD_eq fun i hi => by
    rw [dataOf_flipBit_getMsbD f hi (by decide), decide_eq_false hi.ne, Bool.xor_false]

/-- A flip of a data bit changes the data bits. -/
theorem dataOf_flipBit_ne (f : Frame) {j : Nat} (hj : j < 8) : dataOf (flipBit f j) ≠ dataOf f := fun h => by
  have hbit := dataOf_flipBit_getMsbD f hj (Nat.lt_succ_of_lt hj)
  rw [h] at hbit
  simp at hbit

/-- Correction sees the data bits of a frame only (45_correct R160). -/
theorem correctFrame_congr (conv : Convention) {f g : Frame} (h : dataOf f = dataOf g) :
    correctFrame conv f = correctFrame conv g := by
  rw [correctFrame, correctFrame, h]

/-- Settles O55: correction keeps the corrupted data, and a flipped parity bit is not among the bits it sees. -/
theorem correctionDoesNotUndoDataErrors : Obligations.CorrectionDoesNotUndoDataErrors := by
  intro conv f
  refine ⟨fun j hj => ⟨mismatchBit_correctFrame conv _, frameOfParts_data _ _, dataOf_flipBit_ne f hj⟩,
    fun hvalid => ?_⟩
  calc correctFrame conv (flipBit f 8)
    _ = correctFrame conv f := correctFrame_congr conv (dataOf_flipBit_parity f)
    _ = f := correctFrame_of_match hvalid

end Sys2Proof.Machine

/-! ### Statuses, steps and draws (60_exceptions R171, R174, R186) -/

namespace Sys2Proof.Machine

/-- The row of 60_exceptions R171 for an `op` code: the statuses a response with that `op` can have. -/
def statusesOf : Nat → List Nat
  | 0 => [0, 1, 2, 4]
  | 1 | 2 | 3 | 5 => [0, 4]
  | 4 => [0, 3, 4]
  | _ => [4]

/-- Every `op` code can be refused (60_exceptions R174). -/
theorem four_mem_statusesOf (op : Nat) : 4 ∈ statusesOf op := by
  unfold statusesOf
  split <;> decide

/-- The response table has no row with a status outside R171's (30_encoding R75).  Its last two cases are the refusal,
which any `op` can have, and "no other row". -/
theorem Response.WellFormed.statusCode_mem {cfg : Config} {r : Response} (h : r.WellFormed cfg) :
    r.statusCode ∈ statusesOf r.op.toNat := by
  obtain ⟨-, hrow⟩ := h
  split at hrow
  case h_10 hst => exact hst ▸ four_mem_statusesOf _
  case h_11 => exact hrow.elim
  all_goals
    rename_i hst hop
    rw [hst, hop]
    decide

/-- The one response delivered is the one the caller finds at the end of its list. -/
theorem Answered.response_eq {s t : State} {a b : Response} {k : Nat} (h : Answered s t b k)
    (ha : t.received = s.received ++ [a]) : b = a := by
  subst h
  simpa using ha

/-- Settles O15: the response is a row of the response table, and it echoes the operation's `op` code. -/
theorem statusesOfEachOperation : Obligations.StatusesOfEachOperation := by
  intro i s t a hexec ha
  obtain ⟨t₁, hexec₁, b, k, hans, hrow⟩ := exec_answersRow i s
  obtain ⟨t₂, hexec₂, c, hans', hop, -⟩ := exec_endsOnce i s
  cases hexec.symm.trans hexec₁
  cases hexec.symm.trans hexec₂
  cases hans.response_eq ha
  cases hans'.response_eq ha
  have hmem : a.statusCode ∈ statusesOf i.opcode.toNat := hop ▸ hrow.statusCode_mem
  cases i <;> exact hmem

/-- Settles O22: the state after reset is one of the states of R20, and it has received nothing yet. -/
theorem responseAfterResetIsTheSame : Obligations.ResponseAfterResetIsTheSame := by
  intro s r rest answers count fresh hr hconfig hdrawn
  have hfresh : fresh.callerProgram = r :: [] := rfl
  obtain ⟨s', t', a, hs, ht, hrec, hrec'⟩ :=
    responseDependsOnRequestAndDraws s fresh r rest [] hconfig hr hfresh hdrawn
  exact ⟨s', t', a, hs, ht, hrec, hrec'⟩

/-- Settles O9: a step stays idle, ends the decoded operation once, or refuses the word. -/
theorem everyStepAnswers : Obligations.EveryStepAnswers := by
  intro s
  obtain ⟨-, hidle⟩ | ⟨r, rest, i, -, -, hexec⟩ | ⟨r, rest, e, -, -, hrefuse⟩ := step_cases s
  · exact ⟨s, hidle⟩
  · obtain ⟨t, ht, -⟩ := exec_endsOnce i (s.take r rest)
    exact ⟨t, hexec.trans ht⟩
  · exact ⟨_, hrefuse⟩

/-- A known answer that is the number of a bit is drawn as that bit (60_exceptions R186). -/
theorem State.randBit_of_known {s : State} {k : Nat} {b : Bool} (h : s.draws[k]? = some b.toNat) :
    s.randBit k = b := by
  rw [State.randBit, s.answer_of_known h]
  cases b <;> rfl

/-- Settles O56: a draw is reduced into its range, and a known answer in the range is drawn as it is. -/
theorem drawsRangeOverAllValues : Obligations.DrawsRangeOverAllValues :=
  ⟨fun s k _ hn => s.randIndex_lt k hn, fun _ _ r hr => ⟨[r], State.randIndex_of_known rfl hr⟩,
    fun _ b => ⟨[b.toNat], State.randBit_of_known rfl⟩⟩

end Sys2Proof.Machine

/-! ### The idle engine and reset between operations (70_reset R195, R196) -/

namespace Sys2Proof.Machine

/-- Settles O8: this is the first branch of the step. -/
theorem idleStepChangesNothing : Obligations.IdleStepChangesNothing := by
  intro s hidle
  rw [step, hidle]

/-- Reset changes at most the payload, so an engine that holds none is left as it is (70_reset R195). -/
theorem State.engineReset_eq_self {s : State} (h : s.payload = []) : s.engineReset = s := by
  rw [State.engineReset, ← h]

/-- Taking a request replaces the payload whole, so it hides what reset dropped (20_memory R54, 70_reset R196). -/
@[simp] theorem State.engineReset_take (s : State) (r : Request) (rest : List Request) :
    s.engineReset.take r rest = s.take r rest := rfl

/-- Settles O21: between operations there is no payload to drop, and the step of a request depends on the state only
through the state that has taken the request. -/
theorem resetBetweenOperationsIsIdentity : Obligations.ResetBetweenOperationsIsIdentity := by
  refine ⟨fun s ⟨_, hpayload, _⟩ => State.engineReset_eq_self hpayload, fun s r rest hr => ?_⟩
  have hr' : s.engineReset.callerProgram = r :: rest := hr
  cases hdec : decode r.word with
  | ok i => rw [step_of_decode_ok hr hdec, step_of_decode_ok hr' hdec, State.engineReset_take]
  | error e =>
    have hill : ∀ (cfg : Config) i, decode r.word = .ok i → illegal cfg i r.payload ≠ none := by simp [hdec]
    rw [step_of_illegal hr (hill _), step_of_illegal hr' (hill _), State.engineReset_take]

end Sys2Proof.Machine
